-- ==== Sys2Proof/Word.lean ====
section
/-! DEFINITION. The widths of the block (00_scope.md R8, R9) and what a text is (00_scope.md R10). -/

namespace Sys2Proof

/-- A memory slot, an opcode value, an 8-bit operand: 8 bits, unsigned (R8, R9). -/
abbrev Byte := BitVec 8

/-- A 4-bit field: a register index or a condition code, 0 to 15 (R62). -/
abbrev Nibble := BitVec 4

/-- A resolved immediate or address, 0 to 4095 (R31, R63); an 8-bit one is zero-extended (R64). -/
abbrev Addr12 := BitVec 12

/-- A text: a finite sequence of characters, positions numbered from 0 (R10).
The alphabet 0x20 to 0x7E is the check `Sys2Proof.Machine.isPrintable` (log entry 3). -/
abbrev Text := List Char

end Sys2Proof
end

