-- ==== Sys2Proof/Machine/Text.lean ====
section
/-! DEFINITION. The text primitives of 00_scope.md R10 and R11, and the text operations built on them:
NORMALISE (41_render_shapes.md R89) and STRIP (42_render_modes.md R103). -/

namespace Sys2Proof.Machine

/-- A character of the alphabet: printable ASCII, 0x20 to 0x7E (R10). -/
def isPrintable (c : Char) : Bool :=
  decide (0x20 ≤ c.toNat) && decide (c.toNat ≤ 0x7E)

/-- A text over the alphabet of R10. -/
def printable (t : Text) : Bool :=
  t.all isPrintable

/-- `starts_with(T, P)`: `take(len(P), T) = P` (R10). -/
def startsWith (t p : Text) : Bool :=
  decide (t.take p.length = p)

/-- The scan of `replace_all`: the first argument counts the characters of the last occurrence found that are
still to be passed over, so that what was inserted and what was replaced are never scanned again (R10). -/
def replaceScan (a b : Text) : Nat → Text → Text
  | _, [] => []
  | skip + 1, _ :: cs => replaceScan a b skip cs
  | 0, c :: cs =>
    if startsWith (c :: cs) a then b ++ replaceScan a b (a.length - 1) cs
    else c :: replaceScan a b 0 cs

/-- `replace_all(T, A, B)` for a non-empty `A` (R10). R10 states nothing for an empty `A`: such a call leaves `T` as
it is (DESIGN CHOICE, log entry 5); no configuration of the block makes one (`Config.wf`). -/
def replaceAll (t a b : Text) : Text :=
  if a = [] then t else replaceScan a b 0 t

/-- `remove_all(T, A) = replace_all(T, A, "")` (R10). -/
def removeAll (t a : Text) : Text :=
  replaceAll t a []

/-- One decimal digit. -/
def digit (d : Nat) : Char :=
  Char.ofNat (48 + d % 10)

/-- The digits of `n` in front of `acc`; the first argument bounds how many are written. -/
def decDigits : Nat → Nat → Text → Text
  | 0, _, acc => acc
  | fuel + 1, n, acc =>
    if n < 10 then digit n :: acc
    else decDigits fuel (n / 10) (digit (n % 10) :: acc)

/-- `dec(n)`: the shortest decimal numeral of `n` (R11). -/
def dec (n : Nat) : Text :=
  decDigits (n + 1) n []

/-- Is this template the two-character-mnemonic artefact: a space at position 2 (R70, R89)? -/
def isArtefact (template : Text) : Bool :=
  decide (template[2]? = some ' ')

/-- NORMALISE (R89): the artefact is compacted to its first two characters, every other text is unchanged. -/
def normalise (template : Text) : Text :=
  if isArtefact template then template.take 2 else template

/-- The two adjacent characters of a zero-operand form (R71). -/
def parens : Text := ['(', ')']

/-- STRIP (R103): every adjacent `()` is removed from the text that is shown. -/
def strip (t : Text) : Text :=
  removeAll t parens

end Sys2Proof.Machine
end

