-- ==== Sys2Proof/Config.lean ====
section
/-! DEFINITION. The parameters that 00_scope.md R8 leaves open and that no call changes (70_reset_and_hazards.md R139).
They are a field of State, so that every statement over all states holds for all their values. `MEM_SIZE` is a field of
the memory, `OTAB` and `N_TABLE` are a field of State, `PC_INIT` is `Config.pcInit`; `ROW_FORMAT` lies outside the block. -/

namespace Sys2Proof

/-- The two texts the source leaves open (R8). -/
structure Config where
  /-- `END_DIRECTIVE`: the template text that means "end of program" (R8, R72). -/
  endDirective : Text
  /-- `ADDR12_TOKEN`: the placeholder of the 12-bit address in a `jun(` or `jms(` template (R8, R69). -/
  addr12Token : Text
  deriving DecidableEq, Repr

/-- The suggested default of `END_DIRECTIVE` (R8; PRESUMED, log entry 6). -/
def Config.defaultEndDirective : Text := ['e', 'n', 'd']

/-- The suggested default of `ADDR12_TOKEN` (R8; PRESUMED, log entry 6). -/
def Config.defaultAddr12Token : Text := ['a', 'd', 'd', 'r', 'e', 's', 's', '1', '2']

/-- The suggested defaults together. -/
def Config.default : Config :=
  { endDirective := Config.defaultEndDirective, addr12Token := Config.defaultAddr12Token }

/-- The suggested default of `PC_INIT` (R8, R34; DESIGN CHOICE, log entry 7). -/
def Config.pcInit : Nat := 0

end Sys2Proof
end

