-- ==== Sys2Proof/Syntax.lean ====
section
/-! DEFINITION. The syntax of the block: shapes, the resolved operands of a shape, the instructions (one constructor per
row of opcode_table.json), the opcode table's entries, the results of a lookup, and the inputs of the calls. -/

namespace Sys2Proof

/-- The six template shapes (30_encoding.md R67). -/
inductive Shape where
  | fim | isz | jcn | jun | jms | other
  deriving DecidableEq, Repr

/-- The number of memory slots an instruction occupies, 1 or 2; no other value can be passed (10_state.md R25, R27). -/
inductive Width where
  | one | two
  deriving DecidableEq, Repr

/-- `task_mode`: the two consumption modes (10_state.md R23). -/
inductive Mode where
  | listing | trace
  deriving DecidableEq, Repr

/-- `strictness` of FIND_BY_NAME: SHORT compares the first three characters of the stored mnemonic, FULL all of it
(10_state.md R29). -/
inductive Strictness where
  | short | full
  deriving DecidableEq, Repr

/-- An OpcodeEntry (10_state.md R27). -/
structure OpcodeEntry where
  opcode   : Byte
  mnemonic : Text
  words    : Width
  deriving DecidableEq, Repr

/-- The result of a lookup: an entry, returned whole, or the sentinel NOT_FOUND, which has no `words`
(10_state.md R28, 40_lookup.md R81). -/
inductive LookupResult where
  | found (entry : OpcodeEntry)
  | notFound
  deriving DecidableEq, Repr

/-- What a shape takes out of the instruction's bytes: "each carrying only the fields it needs" (30_encoding.md R56). -/
inductive Operands where
  /-- W2-D8: the immediate (R58). -/
  | fim (data8 : Byte)
  /-- W2-R-D8: the register index and the operand (R59). -/
  | isz (reg : Nibble) (operand : Byte)
  /-- W2-C-A8: the condition code and the address (R60). -/
  | jcn (cond : Nibble) (address8 : Byte)
  /-- W2-A12 (R61). -/
  | jun (address : Addr12)
  /-- W2-A12 (R61). -/
  | jms (address : Addr12)
  /-- W1: no field (R57). -/
  | other
  deriving DecidableEq, Repr

/-- The shape an operand record belongs to. -/
def Operands.shape : Operands → Shape
  | .fim _ => .fim
  | .isz _ _ => .isz
  | .jcn _ _ => .jcn
  | .jun _ => .jun
  | .jms _ => .jms
  | .other => .other

/-- An instruction as the block sees it: its normalised template and the fields taken from its bytes. One constructor
per row of opcode_table.json. -/
inductive Instr where
  /-- Row `fim` (41_render_shapes.md R90). -/
  | fim (template : Text) (data8 : Byte)
  /-- Row `isz` (R91). -/
  | isz (template : Text) (reg : Nibble) (operand : Byte)
  /-- Row `jcn` (R92). -/
  | jcn (template : Text) (cond : Nibble) (address8 : Byte)
  /-- Row `jun` (R93). -/
  | jun (template : Text) (address : Addr12)
  /-- Row `jms` (R94). -/
  | jms (template : Text) (address : Addr12)
  /-- Row "any other template" (R96). -/
  | other (template : Text)
  /-- Row END_DIRECTIVE (42_render_modes.md R102): the template is the parameter itself, and its operands are those of
  the shape of that text (no operands for the suggested default). -/
  | endDirective (operands : Operands)
  /-- Row "two-character mnemonic artefact" (R70, R89): the template as it is stored, before NORMALISE. -/
  | artefact (stored : Text)
  deriving DecidableEq, Repr

/-- The inputs of a RENDER call other than memory and pc (10_state.md R22 to R26). -/
structure RenderInputs where
  template  : Text
  label     : Text
  mode      : Mode
  wordWidth : Width
  quiet     : Bool
  deriving DecidableEq, Repr

/-- The operations of the block as a caller calls them, and what the caller may do between two calls
(70_reset_and_hazards.md R149). -/
inductive HostAction where
  /-- FIND_BY_NAME (40_lookup.md R82). -/
  | findByName (query : Text) (strictness : Strictness)
  /-- FIND_BY_OPCODE (40_lookup.md R84). -/
  | findByOpcode (code : Byte)
  /-- RENDER (41_render_shapes.md R87). -/
  | render (inputs : RenderInputs)
  /-- Between calls the caller puts its program counter anywhere (R147, R149). -/
  | movePc (pc : Nat)
  /-- Between calls the caller changes the memory it passes: these bytes, from index 0, as many as its capacity
  (R138, R149; 20_memory.md R46, R52). -/
  | supplyMemory (bytes : List Byte)
  deriving DecidableEq, Repr

end Sys2Proof
end

