-- ==== Sys2Proof/Machine/Lookup.lean ====
section
/-! DEFINITION. Component 1, the opcode table lookup (40_lookup.md R81 to R86): two scans over an ordered table. -/

namespace Sys2Proof.Machine

/-- What FIND_BY_NAME compares with the query: only the stored mnemonic is truncated (R82). -/
def lookupKey : Strictness → OpcodeEntry → Text
  | .short, e => e.mnemonic.take 3
  | .full, e => e.mnemonic

/-- FIND_BY_NAME (R82): the first entry, in table order, whose key is the query. -/
def findByName : List OpcodeEntry → Text → Strictness → LookupResult
  | [], _, _ => .notFound
  | e :: es, query, strictness =>
    if lookupKey strictness e = query then .found e else findByName es query strictness

/-- The scan of FIND_BY_OPCODE: a later hit replaces an earlier one (R84). -/
def opcodeScan (code : Byte) : LookupResult → List OpcodeEntry → LookupResult
  | result, [] => result
  | result, e :: es => opcodeScan code (if e.opcode = code then .found e else result) es

/-- FIND_BY_OPCODE (R84): the last entry, in table order, with that opcode. -/
def findByOpcode (table : List OpcodeEntry) (code : Byte) : LookupResult :=
  opcodeScan code .notFound table

/-- The sentinel's mnemonic (10_state.md R28). -/
def sentinelMnemonic : Text := ['N', '/', 'A']

/-- A lookup result as the two-field record it is shown as: the sentinel is `opcode -1, mnemonic "N/A"` (10_state.md R28). -/
def shownRecord : LookupResult → Int × Text
  | .found e => (e.opcode.toNat, e.mnemonic)
  | .notFound => (-1, sentinelMnemonic)

end Sys2Proof.Machine
end

