-- ==== Sys2Proof/Machine/Operands.lean ====
section
/-! DEFINITION. Every operand form of the block: how many slots a width is, the shape a template selects
(30_encoding.md R67), the bit fields of the five formats (R56 to R65), and the operands of a shape taken from an
instruction's bytes and put back into them. -/

namespace Sys2Proof.Machine

/-- The number of slots of a width (10_state.md R25). -/
def slots : Width → Nat
  | .one => 1
  | .two => 2

/-- The five prefixes of R67. -/
def fimPrefix : Text := ['f', 'i', 'm']
def iszPrefix : Text := ['i', 's', 'z']
def jcnPrefix : Text := ['j', 'c', 'n', '(']
def junPrefix : Text := ['j', 'u', 'n', '(']
def jmsPrefix : Text := ['j', 'm', 's', '(']

/-- SHAPE (41_render_shapes.md R88), applied to the normalised template. -/
def shapeOf (T : Text) : Shape :=
  if startsWith T fimPrefix then .fim
  else if startsWith T iszPrefix then .isz
  else if startsWith T jcnPrefix then .jcn
  else if startsWith T junPrefix then .jun
  else if startsWith T jmsPrefix then .jms
  else .other

/-- How many bytes RENDER reads for a shape (20_memory.md R39, 30_encoding.md R55). -/
def bytesRead : Shape → Nat
  | .other => 1
  | _ => 2

/-- `byte0[3:0]` (30_encoding.md R62). -/
def lowNibble (b : Byte) : Nibble :=
  b.extractLsb' 0 4

/-- `byte0[7:4]`, the bits that are never examined (30_encoding.md R65); only the encoder uses them. -/
def highNibble (b : Byte) : Nibble :=
  b.extractLsb' 4 4

/-- `{ byte0[3:0], byte1[7:0] }` (30_encoding.md R63). -/
def addr12 (b0 b1 : Byte) : Addr12 :=
  lowNibble b0 ++ b1

/-- An 8-bit operand seen as a 12-bit value, `zext_12` (30_encoding.md R64). -/
def zext12 (b : Byte) : Addr12 :=
  b.setWidth 12

/-- Why bytes are no instruction of a shape: byte `k` of the instruction is not there. -/
inductive Reject where
  /-- Byte `k` (0 or 1) of the instruction is missing; in a step this is the fault OutOfBounds at `pc + k`. -/
  | missingByte (k : Nat)
  deriving DecidableEq, Repr

/-- The fields a shape takes from the instruction's bytes, and the bytes after it (30_encoding.md R56 to R64). -/
def resolve : Shape → List Byte → Except Reject (Operands × List Byte)
  | _, [] => .error (.missingByte 0)
  | .other, _ :: rest => .ok (.other, rest)
  | .fim, _ :: b1 :: rest => .ok (.fim b1, rest)
  | .isz, b0 :: b1 :: rest => .ok (.isz (lowNibble b0) b1, rest)
  | .jcn, b0 :: b1 :: rest => .ok (.jcn (lowNibble b0) b1, rest)
  | .jun, b0 :: b1 :: rest => .ok (.jun (addr12 b0 b1), rest)
  | .jms, b0 :: b1 :: rest => .ok (.jms (addr12 b0 b1), rest)
  | _, [_] => .error (.missingByte 1)

/-- The bytes of an operand record (30_encoding.md R56). The bits that are not examined are those of `fill`: all of it
for byte 0 of W1 and W2-D8, its high nibble for byte 0 of the other formats. -/
def encodeOperands (fill : Byte) : Operands → List Byte
  | .fim data8 => [fill, data8]
  | .isz reg operand => [highNibble fill ++ reg, operand]
  | .jcn cond address8 => [highNibble fill ++ cond, address8]
  | .jun address => [highNibble fill ++ address.extractLsb' 8 4, address.extractLsb' 0 8]
  | .jms address => [highNibble fill ++ address.extractLsb' 8 4, address.extractLsb' 0 8]
  | .other => [fill]

end Sys2Proof.Machine
end

