-- ==== Sys2Proof/WellFormed.lean ====
section
/-! DEFINITION. Which terms of the syntax can occur: texts over the alphabet of 00_scope.md R10, an instruction whose
template selects its constructor (30_encoding.md R67, R72; 41_render_shapes.md R89), and the descriptive grammar of
templates (30_encoding.md R68). RENDER itself checks none of this (30_encoding.md R77). -/

namespace Sys2Proof

open Sys2Proof.Machine

/-- The parameters are texts over the alphabet, and the placeholder is not empty (00_scope.md R8, R10;
41_render_shapes.md R93). -/
abbrev Config.wf (cfg : Config) : Prop :=
  printable cfg.endDirective = true ∧ printable cfg.addr12Token = true ∧ cfg.addr12Token ≠ []

/-- An entry's mnemonic is a text over the alphabet (10_state.md R27). -/
abbrev OpcodeEntry.wf (e : OpcodeEntry) : Prop :=
  printable e.mnemonic = true

/-- The inputs of a RENDER call are texts over the alphabet (10_state.md R26). -/
abbrev RenderInputs.wf (inp : RenderInputs) : Prop :=
  printable inp.template = true ∧ printable inp.label = true

/-- What a caller may pass (10_state.md R22, 00_scope.md R10). -/
def HostAction.wfBool : HostAction → Bool
  | .findByName query _ => printable query
  | .findByOpcode _ => true
  | .render inp => printable inp.template && printable inp.label
  | .movePc _ => true
  | .supplyMemory _ => true

abbrev HostAction.wf (a : HostAction) : Prop :=
  a.wfBool = true

/-- A template that is neither the end directive nor the artefact and selects the shape `sh`. -/
abbrev plainTemplate (cfg : Config) (sh : Shape) (T : Text) : Prop :=
  printable T = true ∧ shapeOf T = sh ∧ isArtefact T = false ∧ T ≠ cfg.endDirective

/-- A well-formed instruction: the template it carries selects its constructor. -/
def Instr.wfBool (cfg : Config) : Instr → Bool
  | .fim T _ => decide (plainTemplate cfg .fim T)
  | .isz T _ _ => decide (plainTemplate cfg .isz T)
  | .jcn T _ _ => decide (plainTemplate cfg .jcn T)
  | .jun T _ => decide (plainTemplate cfg .jun T)
  | .jms T _ => decide (plainTemplate cfg .jms T)
  | .other T => decide (plainTemplate cfg .other T)
  | .endDirective ops =>
    decide (printable cfg.endDirective = true ∧ isArtefact cfg.endDirective = false ∧
      ops.shape = shapeOf cfg.endDirective)
  | .artefact stored =>
    decide (printable stored = true ∧ isArtefact stored = true ∧ normalise stored ≠ cfg.endDirective)

abbrev Instr.wf (cfg : Config) (i : Instr) : Prop :=
  i.wfBool cfg = true

/-- An entry whose declared length is the number of bytes its template's shape reads, as a well-formed table has it
(30_encoding.md R55). Nothing in the block checks it. -/
abbrev OpcodeEntry.lengthFits (e : OpcodeEntry) : Prop :=
  slots e.words = bytesRead (shapeOf (normalise e.mnemonic))

/-- A lower-case letter (30_encoding.md R68). -/
def isLowerCase (c : Char) : Bool :=
  decide (0x61 ≤ c.toNat) && decide (c.toNat ≤ 0x7A)

/-- The operand list of R68 up to its closing parenthesis, which ends the template: operands that are not empty, parted
by commas. A literal text and a literal text followed by a placeholder are both a text without `,` or `)`, for a
placeholder name that holds neither. The first argument says whether the current operand has a character yet. -/
def operandList : Bool → Text → Bool
  | _, [] => false
  | started, c :: cs =>
    if c = ')' then started && decide (cs = [])
    else if c = ',' then started && operandList false cs
    else operandList true cs

/-- The descriptive grammar of templates (30_encoding.md R68). -/
def followsGrammar (cfg : Config) (t : Text) : Bool :=
  decide (t = cfg.endDirective) || isArtefact t ||
    match t with
    | a :: b :: c :: '(' :: rest =>
      isLowerCase a && isLowerCase b && isLowerCase c && (decide (rest = [')']) || operandList false rest)
    | _ => false

end Sys2Proof
end

