-- ==== Sys2Proof/Decode.lean ====
section
/-! DEFINITION. The decoder: an instruction reaches the block as its mnemonic template and its bytes; the template
selects the row, the bytes give the fields (30_encoding.md R56 to R67; "a decoder for this block can be written from the
table alone, given the template", R78). After it the encoder, from the same formats, and the decoder of a bare table
word, for which a reference table of opcodes supplies the template (log entry 8). -/

namespace Sys2Proof

open Sys2Proof.Machine

/-- The row of opcode_table.json that a template selects, with the operands its shape took from the bytes: the end
directive by equality of the whole normalised template (42_render_modes.md R102), the artefact by a space at position 2
(41_render_shapes.md R89), the others by their shape (R67). -/
def instrOf (endDirective template : Text) (ops : Operands) : Instr :=
  if normalise template = endDirective then .endDirective ops
  else if isArtefact template then .artefact template
  else match ops with
    | .fim data8 => .fim template data8
    | .isz reg operand => .isz template reg operand
    | .jcn cond address8 => .jcn template cond address8
    | .jun address => .jun template address
    | .jms address => .jms template address
    | .other => .other template

/-- The decoder: from a template and bytes, the instruction and the bytes after it, or which byte is missing. -/
def decode (endDirective template : Text) (bytes : List Byte) : Except Reject (Instr × List Byte) :=
  match resolve (shapeOf (normalise template)) bytes with
  | .ok (ops, rest) => .ok (instrOf endDirective template ops, rest)
  | .error r => .error r

/-- The operands an instruction carries. -/
def Instr.operands : Instr → Operands
  | .fim _ data8 => .fim data8
  | .isz _ reg operand => .isz reg operand
  | .jcn _ cond address8 => .jcn cond address8
  | .jun _ address => .jun address
  | .jms _ address => .jms address
  | .other _ => .other
  | .endDirective ops => ops
  | .artefact _ => .other

/-- The template an instruction stands under in the opcode table. -/
def encodeTemplate (endDirective : Text) : Instr → Text
  | .fim T _ => T
  | .isz T _ _ => T
  | .jcn T _ _ => T
  | .jun T _ => T
  | .jms T _ => T
  | .other T => T
  | .endDirective _ => endDirective
  | .artefact stored => stored

/-- The encoder: the bytes of an instruction. The bits its format does not examine are those of `fill`
(30_encoding.md R56, R65). -/
def encode (fill : Byte) (i : Instr) : List Byte :=
  encodeOperands fill i.operands

/-- The template and width that a reader of bare words gives opcode `n`; PRESUMED, from the patterns and fixture entries
of 93_implementation_defined.md G4, G6 and G8 (log entry 8). The block's own table is the parameter OTAB, a field of
State, and is empty at reset (30_encoding.md R66). -/
def referenceEntry (n : Nat) : Option OpcodeEntry :=
  let entry (t : Text) (w : Width) : Option OpcodeEntry := some ⟨BitVec.ofNat 8 n, t, w⟩
  if n = 0x00 then entry ['n', 'o', 'p', '(', ')'] .one
  else if n / 16 = 0x1 then entry (jcnPrefix ++ ['a', 'd', 'd', 'r', 'e', 's', 's', '8', ')']) .two
  else if n / 16 = 0x2 ∧ n % 2 = 0 then
    entry (fimPrefix ++ ['('] ++ dec (n % 16 / 2) ++ ['p', ',', 'd', 'a', 't', 'a', '8', ')']) .two
  else if n / 16 = 0x4 then entry (junPrefix ++ Config.defaultAddr12Token ++ [')']) .two
  else if n / 16 = 0x5 then entry (jmsPrefix ++ Config.defaultAddr12Token ++ [')']) .two
  else if n / 16 = 0x7 then
    entry (iszPrefix ++ ['('] ++ dec (n % 16) ++ [',', 'a', 'd', 'd', 'r', 'e', 's', 's', '8', ')']) .two
  else if n / 16 = 0xA then entry (['l', 'd', ' ', '('] ++ dec (n % 16) ++ [')']) .one
  else if n = 0xF0 then entry ['c', 'l', 'b', '(', ')'] .one
  else if n = 0xFF then entry Config.defaultEndDirective .one
  else none

/-- Byte `k` of a table word of `nbits` bits, bit 0 the least significant of the first byte; bits above `nbits` are 0. -/
def tableByte (nbits w k : Nat) : Byte :=
  BitVec.ofNat 8 (w % 2 ^ nbits / 256 ^ k)

/-- The entry the reference table gives the first byte of a table word. -/
def tableEntry (nbits w : Nat) : Option OpcodeEntry :=
  referenceEntry (tableByte nbits w 0).toNat

/-- The instruction the decoder reads from a table word, with the template the reference table gives its first byte. -/
def decodeTableWord (nbits w : Nat) : Option Instr :=
  match tableEntry nbits w with
  | none => none
  | some e =>
    match decode Config.defaultEndDirective e.mnemonic [tableByte nbits w 0, tableByte nbits w 1] with
    | .ok (i, _) => some i
    | .error _ => none

end Sys2Proof
end

