-- ==== Sys2Proof/Machine/State.lean ====
section
/-! DEFINITION. State as plain data: the parameters, the three objects of the processor collaborator that the block works
on (10_state.md R15), the calls the caller has waiting, the inputs of the call that runs, and what the calls deliver. -/

namespace Sys2Proof.Machine

/-- What a slot of the memory that no cell lists reads as (log entry 4). -/
def fillByte : Byte := 0

/-- The instruction memory IMEM (10_state.md R30): its capacity `MEM_SIZE` and its bytes, listed by index. Only the
bytes that differ from `fillByte` are listed. -/
structure Memory where
  size  : Nat
  cells : List Host.Cell
  deriving DecidableEq, Repr

/-- The canonical form: indexes strictly rising, all below the capacity, no cell equal to what an unlisted slot reads as. -/
abbrev Memory.wf (m : Memory) : Prop :=
  m.cells.Pairwise (fun c d => c.1 < d.1) ∧ ∀ c ∈ m.cells, c.1 < m.size ∧ c.2 ≠ fillByte

/-- A DecodedInstruction, the output of a RENDER call that does not fault (10_state.md R31). -/
structure Decoded where
  shape    : Shape
  /-- The numeric form, the contract's `rendered_text`. -/
  text     : Text
  /-- The symbolic form, for JCN, JUN and JMS (41_render_shapes.md R95). -/
  symbolic : Option Text
  /-- The custom-opcode flag (10_state.md R21). -/
  custom   : Bool
  /-- The resolved register index, for ISZ. -/
  reg      : Option Nibble
  /-- The resolved immediate or address, zero-extended; none for OTHER. -/
  value    : Option Addr12
  /-- The resolved condition code, for JCN. -/
  cond     : Option Nibble
  deriving DecidableEq, Repr

/-- A row handed to the display collaborator (10_state.md R32). -/
inductive Row where
  | listing (pc : Nat) (label shown : Text)
  | trace (label shown : Text)
  deriving DecidableEq, Repr

/-- What the last call that completed delivered. -/
inductive Result where
  /-- No call has completed yet. -/
  | nothing
  | lookup (result : LookupResult)
  | decoded (record : Decoded)
  deriving DecidableEq, Repr

/-- The machine. The block keeps nothing of its own between calls (10_state.md R33): `config`, `otab`, `mem`, `pc` and
`pending` are the caller's, `inputs` are the values on the inputs of the RENDER call that runs (written by every call
before it reads them, log entry 2), `result` and `rows` are outputs. -/
structure State where
  /-- The parameters END_DIRECTIVE and ADDR12_TOKEN (00_scope.md R8). -/
  config  : Config
  /-- The opcode table OTAB, in table order (10_state.md R27). -/
  otab    : List OpcodeEntry
  /-- The instruction memory IMEM (10_state.md R30). -/
  mem     : Memory
  /-- The program counter: a natural number without bound (10_state.md R16, R19). -/
  pc      : Nat
  /-- What the caller does next, the next one first (70_reset_and_hazards.md R149; log entry 1). -/
  pending : List HostAction
  /-- The control inputs of the RENDER call that runs (10_state.md R22 to R26). -/
  inputs  : RenderInputs
  /-- The output of the last call that completed (10_state.md R28, R31). -/
  result  : Result
  /-- The rows handed to the display collaborator, the first one first (42_render_modes.md R104). -/
  rows    : List Row
  deriving DecidableEq, Repr

/-- The one fault of the block (60_exceptions.md R111, R126). -/
inductive Fault where
  /-- RENDER would read the slot `index`, which is not below MEM_SIZE (60_exceptions.md R112, R114). Raised by the reads
  of a RENDER call, before any effect. Safe: the spec names the fault and stops the call there. -/
  | outOfBounds (index : Nat)
  deriving DecidableEq, Repr

/-- Why an instruction has no meaning. -/
inductive Refusal where
  /-- The instruction has no meaning in this model yet: raised by no arm, every row of the table has its meaning. Safe. -/
  | notModelled (mnemonic : String)
  deriving DecidableEq, Repr

/-- The inputs before the first RENDER call: never read (10_state.md R34 gives none; DESIGN CHOICE, log entry 7). -/
def resetInputs : RenderInputs :=
  { template := [], label := [], mode := .listing, wordWidth := .one, quiet := false }

/-- The machine before the caller's first call. The block has no reset (70_reset_and_hazards.md R135): the caller has
supplied no memory and no table and made no call; the parameters and the program counter have the suggested defaults
(10_state.md R34; log entries 6 and 7). -/
def State.reset : State :=
  { config  := Config.default
    otab    := []
    mem     := { size := 0, cells := [] }
    pc      := Config.pcInit
    pending := []
    inputs  := resetInputs
    result  := .nothing
    rows    := [] }

end Sys2Proof.Machine
end

