-- ==== Sys2Proof/Machine/Flags.lean ====
section
/-! DEFINITION. The two one-bit values of a RENDER call (10_state.md R21) and the numeric codes of the error kinds
(60_exceptions.md R111). The block has no status flags. -/

namespace Sys2Proof.Machine

/-- The custom-opcode flag: set by JCN, JUN and JMS alone (10_state.md R21, 41_render_shapes.md R95). -/
def customFlag : Shape → Bool
  | .jcn | .jun | .jms => true
  | .fim | .isz | .other => false

/-- The should-display decision (10_state.md R21, R24). -/
def shouldDisplay (quiet : Bool) : Bool :=
  !quiet

/-- The error kinds of the source (60_exceptions.md R111). -/
inductive ErrorKind where
  | none | outOfBounds | unknownMnemonic | malformedTemplate
  deriving DecidableEq, Repr

/-- The numbers the spec assigns them (60_exceptions.md R111). -/
def ErrorKind.code : ErrorKind → Nat
  | .none => 0
  | .outOfBounds => 1
  | .unknownMnemonic => 2
  | .malformedTemplate => 3

/-- The kind of a fault. -/
def faultKind : Fault → ErrorKind
  | .outOfBounds _ => .outOfBounds

/-- The kind of a result: a lookup that found nothing is UnknownMnemonic, an ordinary result (60_exceptions.md R118).
A call that completes reports no other kind: MalformedTemplate is "not an event at all" (R111, R119). -/
def resultKind : Result → ErrorKind
  | .lookup .notFound => .unknownMnemonic
  | _ => .none

/-- The name the source has for a template that selects none of the five shapes (60_exceptions.md R119); it is the
caller's vocabulary, and nothing in the block reads it. -/
def templateKind (template : Text) : ErrorKind :=
  match shapeOf (normalise template) with
  | .other => .malformedTemplate
  | _ => .none

end Sys2Proof.Machine
end

