-- ==== Sys2Proof/Machine/Ops.lean ====
section
/-! DEFINITION. The operations that the meanings share: reading and supplying the instruction memory (20_memory.md R37),
the reads of a shape (R39), raising the one fault and going on after it (60_exceptions.md R112 to R117, R122, R123),
handing over a row (42_render_modes.md R104), and step 3 of RENDER in its two modes (R98 to R107). -/

namespace Sys2Proof.Machine

/-! ### One field of the state replaced -/

def State.withPending (s : State) (pending : List HostAction) : State := { s with pending := pending }

def State.withInputs (s : State) (inputs : RenderInputs) : State := { s with inputs := inputs }

def State.withResult (s : State) (result : Result) : State := { s with result := result }

def State.withPc (s : State) (pc : Nat) : State := { s with pc := pc }

def State.withMem (s : State) (mem : Memory) : State := { s with mem := mem }

/-- The display collaborator takes these rows, after the ones it has (42_render_modes.md R104). -/
def State.addRows (s : State) (rows : List Row) : State := { s with rows := s.rows ++ rows }

/-! ### The instruction memory -/

/-- The byte of a slot that exists. -/
def Memory.peek (m : Memory) (a : Nat) : Byte :=
  (m.cells.lookup a).getD fillByte

/-- `MemRead(addr, 1)` (20_memory.md R37): an index that is not below the capacity is never wrapped, clamped or given a
default byte. -/
def memRead (m : Memory) (a : Nat) : Except Fault Byte :=
  if m.size ≤ a then .error (.outOfBounds a) else .ok (m.peek a)

/-- The two reads of a two-byte shape, `pc` before `pc+1` (20_memory.md R39). -/
def readPair (m : Memory) (pc : Nat) : Except Fault (Byte × Byte) :=
  match memRead m pc with
  | .error f => .error f
  | .ok b0 =>
    match memRead m (pc + 1) with
    | .error f => .error f
    | .ok b1 => .ok (b0, b1)

/-- The bytes of the instruction at `pc` that a shape consumes, read in the order of 20_memory.md R39. -/
def readBytes (m : Memory) (pc : Nat) : Shape → Except Fault (List Byte)
  | .other =>
    match memRead m pc with
    | .error f => .error f
    | .ok b0 => .ok [b0]
  | _ =>
    match readPair m pc with
    | .error f => .error f
    | .ok (b0, b1) => .ok [b0, b1]

/-- The cells with one byte replaced, in canonical form. -/
def putCell (a : Nat) (b : Byte) : List Host.Cell → List Host.Cell
  | [] => if b = fillByte then [] else [(a, b)]
  | c :: cs =>
    if a < c.1 then (if b = fillByte then c :: cs else (a, b) :: c :: cs)
    else if a = c.1 then (if b = fillByte then cs else (a, b) :: cs)
    else c :: putCell a b cs

/-- The owner of the memory puts a byte into a slot; a slot at or beyond the capacity does not exist and the memory stays
as it is. The block never does this (20_memory.md R38). -/
def Memory.store (m : Memory) (a : Nat) (b : Byte) : Memory :=
  if a < m.size then { m with cells := putCell a b m.cells } else m

/-- The cells of a list of bytes that begins at index `a`. -/
def cellsFrom : Nat → List Byte → List Host.Cell
  | _, [] => []
  | a, b :: bs => if b = fillByte then cellsFrom (a + 1) bs else (a, b) :: cellsFrom (a + 1) bs

/-- The memory the caller supplies: `MEM_SIZE` defined bytes (10_state.md R30, R34). -/
def Memory.ofBytes (bytes : List Byte) : Memory :=
  { size := bytes.length, cells := cellsFrom 0 bytes }

/-- The same memory with room for at least `size` slots. -/
def Memory.grow (m : Memory) (size : Nat) : Memory :=
  { m with size := max m.size size }

/-! ### The fault -/

/-- Raising the fault: it is the outcome of the call, with no new state and no handler (60_exceptions.md R115, R122). -/
def raise (f : Fault) : Host.Outcome State Fault Refusal :=
  .fault f

/-- Where the caller goes on after a call that faulted: the call is over and nothing else has changed
(60_exceptions.md R115, R117, R123). -/
def afterFault (s : State) : State :=
  s.withPending s.pending.tail

/-! ### Step 3 of RENDER -/

/-- The rows a call hands over: one, or none when it must not display (42_render_modes.md R104). -/
def emit (quiet : Bool) (row : Row) : List Row :=
  if shouldDisplay quiet then [row] else []

/-- The label column of a listing row (42_render_modes.md R102). -/
def listingLabel (cfg : Config) (T label : Text) : Text :=
  if T = cfg.endDirective then [] else label

/-- Is the custom-opcode flag honoured in listing mode (42_render_modes.md R100, R102)? -/
def honoured (cfg : Config) (T : Text) (d : Decoded) : Bool :=
  if T = cfg.endDirective then false else d.custom

/-- The form that a listing row shows (42_render_modes.md R101); a symbolic form is there whenever `custom` is true. -/
def listingForm (cfg : Config) (T : Text) (d : Decoded) : Text :=
  if honoured cfg T d then d.symbolic.getD d.text else d.text

/-- LISTING_STEP (42_render_modes.md R100): the rows handed over and the new program counter. -/
def listingStep (cfg : Config) (d : Decoded) (T : Text) (inp : RenderInputs) (pc : Nat) : List Row × Nat :=
  (emit inp.quiet (.listing pc (listingLabel cfg T inp.label) (strip (listingForm cfg T d))),
    pc + slots inp.wordWidth)

/-- TRACE_STEP (42_render_modes.md R105): the rows handed over. It is given no program counter and returns none
(10_state.md R18). -/
def traceStep (d : Decoded) (inp : RenderInputs) : List Row :=
  emit inp.quiet (.trace inp.label (strip d.text))

/-- Steps 3 to 6 of a RENDER call whose shape rule delivered `d` for the normalised template `T`
(42_render_modes.md R98, R99, R109). -/
def deliver (d : Decoded) (T : Text) (s : State) : State :=
  match s.inputs.mode with
  | .listing =>
    ((s.addRows (listingStep s.config d T s.inputs s.pc).1).withPc
      (listingStep s.config d T s.inputs s.pc).2).withResult (.decoded d)
  | .trace => (s.addRows (traceStep d s.inputs)).withResult (.decoded d)

end Sys2Proof.Machine
end

