-- ==== Sys2Proof/Machine/CustomOpcodes.lean ====
section
/-! DEFINITION. The custom-opcode shapes, which carry a symbolic and a numeric form: JCN, JUN and JMS
(41_render_shapes.md R92 to R95). -/

namespace Sys2Proof.Machine

/-- The address placeholder of a `jcn(` template (30_encoding.md R69). -/
def address8Token : Text := ['a', 'd', 'd', 'r', 'e', 's', 's', '8']

/-- The record of JCN (R92). The condition is one number; its bits are neither named nor tested. -/
def jcnRecord (T : Text) (cond : Nibble) (address8 : Byte) : Decoded :=
  { shape    := .jcn
    text     := jcnPrefix ++ dec cond.toNat ++ [','] ++ dec address8.toNat ++ [')']
    symbolic := some (replaceAll T address8Token (dec address8.toNat))
    custom   := customFlag .jcn
    reg      := none
    value    := some (zext12 address8)
    cond     := some cond }

/-- JCN: step 3 on its record. -/
def execJcn (T : Text) (cond : Nibble) (address8 : Byte) (s : State) : Host.Outcome State Fault Refusal :=
  .next (deliver (jcnRecord T cond address8) T s)

/-- The record of JUN (R93); `token` is ADDR12_TOKEN. -/
def junRecord (token T : Text) (address : Addr12) : Decoded :=
  { shape    := .jun
    text     := junPrefix ++ dec address.toNat ++ [')']
    symbolic := some (replaceAll T token (dec address.toNat))
    custom   := customFlag .jun
    reg      := none
    value    := some address
    cond     := none }

/-- JUN: step 3 on its record. The address is only printed: the next `pc` is never the target (42_render_modes.md R108). -/
def execJun (T : Text) (address : Addr12) (s : State) : Host.Outcome State Fault Refusal :=
  .next (deliver (junRecord s.config.addr12Token T address) T s)

/-- The record of JMS (R94); `token` is ADDR12_TOKEN. -/
def jmsRecord (token T : Text) (address : Addr12) : Decoded :=
  { shape    := .jms
    text     := jmsPrefix ++ dec address.toNat ++ [')']
    symbolic := some (replaceAll T token (dec address.toNat))
    custom   := customFlag .jms
    reg      := none
    value    := some address
    cond     := none }

/-- JMS: step 3 on its record; no return address is kept (42_render_modes.md R108). -/
def execJms (T : Text) (address : Addr12) (s : State) : Host.Outcome State Fault Refusal :=
  .next (deliver (jmsRecord s.config.addr12Token T address) T s)

end Sys2Proof.Machine
end

