-- ==== Sys2Proof/Machine/ImmediateShapes.lean ====
section
/-! DEFINITION. The two-byte shapes without a symbolic form: FIM and ISZ (41_render_shapes.md R90, R91). -/

namespace Sys2Proof.Machine

/-- The placeholder tokens of a `fim` template (30_encoding.md R69). -/
def data8Token : Text := ['d', 'a', 't', 'a', '8']
def pairToken : Text := ['p']

/-- The record of FIM (R90). The register pair is what the template has in front of `p`; no bit of byte 0 is used. -/
def fimRecord (T : Text) (data8 : Byte) : Decoded :=
  { shape    := .fim
    text     := removeAll (replaceAll T data8Token (dec data8.toNat)) pairToken
    symbolic := none
    custom   := customFlag .fim
    reg      := none
    value    := some (zext12 data8)
    cond     := none }

/-- FIM: step 3 on its record. -/
def execFim (T : Text) (data8 : Byte) (s : State) : Host.Outcome State Fault Refusal :=
  .next (deliver (fimRecord T data8) T s)

/-- The record of ISZ (R91). Whatever follows `isz` in the template is discarded. -/
def iszRecord (reg : Nibble) (operand : Byte) : Decoded :=
  { shape    := .isz
    text     := iszPrefix ++ ['('] ++ dec reg.toNat ++ [','] ++ dec operand.toNat ++ [')']
    symbolic := none
    custom   := customFlag .isz
    reg      := some reg
    value    := some (zext12 operand)
    cond     := none }

/-- ISZ: step 3 on its record. -/
def execIsz (T : Text) (reg : Nibble) (operand : Byte) (s : State) : Host.Outcome State Fault Refusal :=
  .next (deliver (iszRecord reg operand) T s)

end Sys2Proof.Machine
end

