-- ==== Sys2Proof/Machine/VerbatimShapes.lean ====
section
/-! DEFINITION. The rows without an operand rule of their own: any other template (41_render_shapes.md R96), the
two-character artefact (R70, R89) and the end directive (42_render_modes.md R102). -/

namespace Sys2Proof.Machine

/-- The record of OTHER (R96): the normalised template, verbatim. -/
def otherRecord (T : Text) : Decoded :=
  { shape    := .other
    text     := T
    symbolic := none
    custom   := customFlag .other
    reg      := none
    value    := none
    cond     := none }

/-- OTHER: step 3 on its record. -/
def execOther (T : Text) (s : State) : Host.Outcome State Fault Refusal :=
  .next (deliver (otherRecord T) T s)

/-- The two-character artefact: NORMALISE compacts it, then it is an OTHER template (R89). -/
def execArtefact (stored : Text) (s : State) : Host.Outcome State Fault Refusal :=
  .next (deliver (otherRecord (normalise stored)) (normalise stored) s)

/-- The record of an operand record, whatever its shape (41_render_shapes.md R90 to R96). -/
def recordOf (token T : Text) : Operands → Decoded
  | .fim data8 => fimRecord T data8
  | .isz reg operand => iszRecord reg operand
  | .jcn cond address8 => jcnRecord T cond address8
  | .jun address => junRecord token T address
  | .jms address => jmsRecord token T address
  | .other => otherRecord T

/-- The end directive: its template is the parameter END_DIRECTIVE, its record that of the shape of this text; in listing
mode step 3 clears the label and honours no custom-opcode flag, in trace mode it is a template like any other
(42_render_modes.md R102, R106). -/
def execEndDirective (ops : Operands) (s : State) : Host.Outcome State Fault Refusal :=
  .next (deliver (recordOf s.config.addr12Token s.config.endDirective ops) s.config.endDirective s)

end Sys2Proof.Machine
end

