-- ==== Sys2Proof/Machine/Dispatch.lean ====
section
/-! DEFINITION. One arm for every instruction, each a direct call of its meaning. -/

namespace Sys2Proof.Machine

def exec (i : Instr) (s : State) : Host.Outcome State Fault Refusal :=
  match i with
  | .fim template data8 => Sys2Proof.Machine.execFim template data8 s
  | .isz template reg operand => Sys2Proof.Machine.execIsz template reg operand s
  | .jcn template cond address8 => Sys2Proof.Machine.execJcn template cond address8 s
  | .jun template address => Sys2Proof.Machine.execJun template address s
  | .jms template address => Sys2Proof.Machine.execJms template address s
  | .other template => Sys2Proof.Machine.execOther template s
  | .endDirective operands => Sys2Proof.Machine.execEndDirective operands s
  | .artefact stored => Sys2Proof.Machine.execArtefact stored s

end Sys2Proof.Machine
end

