-- ==== Sys2Proof/Machine/Calls.lean ====
section
/-! DEFINITION. What the block does with one action of the caller: the two lookups (40_lookup.md R82, R84), a RENDER call
(41_render_shapes.md R87), and the caller's own moves between calls (70_reset_and_hazards.md R149). -/

namespace Sys2Proof.Machine

/-- Steps 1 and 2 of a RENDER call up to the operands: normalise the template, read the bytes its shape consumes, decode
(42_render_modes.md R98). A byte that the decoder misses is the fault at that byte's index. -/
def fetchInstr (s : State) : Except Fault Instr :=
  match readBytes s.mem s.pc (shapeOf (normalise s.inputs.template)) with
  | .error f => .error f
  | .ok bytes =>
    match decode s.config.endDirective s.inputs.template bytes with
    | .ok (i, _) => .ok i
    | .error (.missingByte k) => .error (.outOfBounds (s.pc + k))

/-- A RENDER call on the inputs in the state. -/
def runRender (s : State) : Host.Outcome State Fault Refusal :=
  match fetchInstr s with
  | .error f => raise f
  | .ok i => exec i s

/-- One action of the caller. -/
def perform (a : HostAction) (s : State) : Host.Outcome State Fault Refusal :=
  match a with
  | .findByName query strictness => .next (s.withResult (.lookup (findByName s.otab query strictness)))
  | .findByOpcode code => .next (s.withResult (.lookup (findByOpcode s.otab code)))
  | .render inp => runRender (s.withInputs inp)
  | .movePc pc => .next (s.withPc pc)
  | .supplyMemory bytes => .next (s.withMem (Memory.ofBytes bytes))

/-- The caller's next action is taken; with none waiting the block does nothing, since it never acts on its own
(70_reset_and_hazards.md R136). -/
def takeAction (s : State) : Host.Outcome State Fault Refusal :=
  match s.pending with
  | [] => .next s
  | a :: rest => perform a (s.withPending rest)

/-- What a caller asks for when the table has entry `e` for the byte `b` at its program counter: the entry's template and
width, in listing mode (70_reset_and_hazards.md R142; the label is the fixtures' convention, log entry 9). -/
def renderOfEntry (b : Byte) (e : OpcodeEntry) : RenderInputs :=
  { template := e.mnemonic, label := dec b.toNat, mode := .listing, wordWidth := e.words, quiet := false }

/-- The action that follows a caller's lookup in the reference table for bare words: the RENDER call, or only the lookup
when the table has no entry (log entry 8). -/
def actionOfTableWord (nbits w : Nat) : HostAction :=
  match tableEntry nbits w with
  | some e => .render (renderOfEntry (tableByte nbits w 0) e)
  | none => .findByOpcode (tableByte nbits w 0)

/-- The caller loads the two bytes of a table word at its program counter and asks for the instruction there. -/
def loadTableWord (s : State) (nbits w : Nat) : State :=
  (s.withMem
    (((s.mem.grow (s.pc + 2)).store s.pc (tableByte nbits w 0)).store (s.pc + 1) (tableByte nbits w 1))).withPending
      (actionOfTableWord nbits w :: s.pending)

end Sys2Proof.Machine
end

