-- ==== Sys2Proof/Machine/Step.lean ====
section
/-! DEFINITION. One step is one call, taken atomically (00_scope.md R6, R14). -/

namespace Sys2Proof.Machine

/-- One step: the caller's next action. -/
def step (s : State) : Host.Outcome State Fault Refusal :=
  takeAction s

/-- `s` with the instruction of a table word placed where the next step decodes it: its bytes at `pc`, room for them in
the memory, and the RENDER call that brings its template (log entry 8). -/
def State.withFetchWord (s : State) (nbits w : Nat) : State :=
  loadTableWord s nbits w

end Sys2Proof.Machine
end

