-- ==== Sys2Proof/Machine/Render.lean ====
section
/-! DEFINITION. RENDER as a function of its inputs, transcribed from 42_render_modes.md R109: the clear form, which reads
memory inside the shape rules and knows no instruction type. The machine's step decodes an instruction and runs its
meaning; that the two agree is a statement. -/

namespace Sys2Proof.Machine

/-- Step 2: the shape rule that the normalised template selects (41_render_shapes.md R88, R90 to R96). -/
def shapeRule (cfg : Config) (T : Text) (m : Memory) (pc : Nat) : Except Fault Decoded :=
  match shapeOf T with
  | .fim => (readPair m pc).map fun b => fimRecord T b.2
  | .isz => (readPair m pc).map fun b => iszRecord (lowNibble b.1) b.2
  | .jcn => (readPair m pc).map fun b => jcnRecord T (lowNibble b.1) b.2
  | .jun => (readPair m pc).map fun b => junRecord cfg.addr12Token T (addr12 b.1 b.2)
  | .jms => (readPair m pc).map fun b => jmsRecord cfg.addr12Token T (addr12 b.1 b.2)
  | .other => (memRead m pc).map fun _ => otherRecord T

/-- RENDER in listing mode: the record, the rows handed over, the new program counter. -/
def renderListing (cfg : Config) (m : Memory) (pc : Nat) (inp : RenderInputs) :
    Except Fault (Decoded × List Row × Nat) :=
  (shapeRule cfg (normalise inp.template) m pc).map fun d =>
    (d, listingStep cfg d (normalise inp.template) inp pc)

/-- RENDER in trace mode: the record and the rows handed over. It has no way to return a program counter
(10_state.md R18). -/
def renderTrace (cfg : Config) (m : Memory) (pc : Nat) (inp : RenderInputs) : Except Fault (Decoded × List Row) :=
  (shapeRule cfg (normalise inp.template) m pc).map fun d => (d, traceStep d inp)

end Sys2Proof.Machine
end

