-- ==== Sys2Proof/Machine/Walker.lean ====
section
/-! DEFINITION. The reference walker of 70_reset_and_hazards.md R152 and 95_test_vectors.md section 0: what a caller builds
out of calls. It is no part of the block. -/

namespace Sys2Proof.Machine

/-- How a walk ended (R152), or that the bound on its calls was reached. -/
inductive WalkEnd where
  | endOfMemory
  | unknownMnemonic
  | fault (f : Fault)
  | refused (r : Refusal)
  | outOfFuel
  deriving DecidableEq, Repr

/-- At most `fuel` rounds of lookup and listing-mode RENDER. -/
def walk : Nat → State → State × WalkEnd
  | 0, s => (s, .outOfFuel)
  | fuel + 1, s =>
    if s.mem.size ≤ s.pc then (s, .endOfMemory)
    else match findByOpcode s.otab (s.mem.peek s.pc) with
      | .notFound => (s, .unknownMnemonic)
      | .found e =>
        match perform (.render (renderOfEntry (s.mem.peek s.pc) e)) s with
        | .next t => walk fuel t
        | .fault f => (s, .fault f)
        | .refused r => (s, .refused r)

end Sys2Proof.Machine
end

