-- ==== Sys2Proof/Safety.lean ====
section
/-! DEFINITION. What the statements call a good state and a safe call. -/

namespace Sys2Proof.Machine

/-- Which fields a record has for its shape, and the range of its value (10_state.md R31). -/
def Decoded.fieldsFit (d : Decoded) : Bool :=
  (d.custom == customFlag d.shape) && (d.symbolic.isSome == customFlag d.shape) &&
    (d.reg.isSome == decide (d.shape = .isz)) && (d.cond.isSome == decide (d.shape = .jcn)) &&
    (d.value.isSome == decide (d.shape ≠ .other)) &&
    match d.shape, d.value with
    | .fim, some v | .isz, some v | .jcn, some v => decide (v.toNat ≤ 255)
    | _, _ => true

/-- A record's texts are over the alphabet (00_scope.md R10) and its fields fit its shape. -/
abbrev Decoded.wf (d : Decoded) : Prop :=
  printable d.text = true ∧ (∀ t ∈ d.symbolic, printable t = true) ∧ d.fieldsFit = true

/-- The texts of a row are over the alphabet. -/
def Row.printableBool : Row → Bool
  | .listing _ label shown => printable label && printable shown
  | .trace label shown => printable label && printable shown

abbrev Row.wf (r : Row) : Prop :=
  r.printableBool = true

/-- A lookup returns an entry of the table or the sentinel (40_lookup.md R81). -/
def fromTable (table : List OpcodeEntry) : LookupResult → Prop
  | .found e => e ∈ table
  | .notFound => True

/-- What a result can be: a lookup's, or the record of a RENDER call. -/
def Result.wf (table : List OpcodeEntry) : Result → Prop
  | .nothing => True
  | .lookup r => fromTable table r
  | .decoded d => d.wf

/-- A good state: the parameters are legal, every text is over the alphabet, the memory is in canonical form, the record
last delivered has the fields of its shape. -/
structure State.Good (s : State) : Prop where
  config  : s.config.wf
  otab    : ∀ e ∈ s.otab, e.wf
  mem     : s.mem.wf
  pending : ∀ a ∈ s.pending, a.wf
  inputs  : s.inputs.wf
  result  : s.result.wf s.otab
  rows    : ∀ r ∈ s.rows, r.wf

/-- The indexes a RENDER call with this template reads at `pc` all lie in the memory (20_memory.md R39). -/
abbrev inBounds (m : Memory) (pc : Nat) (template : Text) : Prop :=
  pc + bytesRead (shapeOf (normalise template)) ≤ m.size

/-- The calls of the block, as against the caller's own moves between calls. -/
def isCall : HostAction → Bool
  | .findByName _ _ | .findByOpcode _ | .render _ => true
  | .movePc _ | .supplyMemory _ => false

/-- An outcome whose next state is changed by `g`; a fault and a refusal stay. -/
def mapNext (g : State → State) : Host.Outcome State Fault Refusal → Host.Outcome State Fault Refusal
  | .next s => .next (g s)
  | .fault f => .fault f
  | .refused r => .refused r

/-- What a completed RENDER call leaves, written out field by field: the record `d` is returned; in listing mode `pc` has
moved by the width and the row shows the form `listed` under the label, or the numeric form under no label for the end
directive; in trace mode `pc` stays and the row shows the numeric form; no row when `quiet`; nothing else is changed
(42_render_modes.md R100, R102, R105). -/
def CompletesWith (o : Host.Outcome State Fault Refusal) (s : State) (T : Text) (d : Decoded) (listed : Text) : Prop :=
  (s.inputs.mode = .listing →
    o = .next { s with
      result := .decoded d
      pc     := s.pc + (match s.inputs.wordWidth with | .one => 1 | .two => 2)
      rows   := s.rows ++ (if s.inputs.quiet = true then []
        else if T = s.config.endDirective then [Row.listing s.pc [] (strip d.text)]
        else [Row.listing s.pc s.inputs.label (strip listed)]) }) ∧
  (s.inputs.mode = .trace →
    o = .next { s with
      result := .decoded d
      rows   := s.rows ++ (if s.inputs.quiet = true then []
        else [Row.trace s.inputs.label (strip d.text)]) })

/-- A run of at most `n` steps from `s` meets no fault. -/
def safeFor : Nat → State → Bool
  | 0, _ => true
  | n + 1, s =>
    match step s with
    | .next t => safeFor n t
    | .fault _ => false
    | .refused _ => false

end Sys2Proof.Machine
end

