-- ==== Sys2Proof/Certificates/Slice0/Obligations.lean ====
section
/-! DEFINITION. The statements. Each docstring names the rules it rests on. -/

open Sys2Proof Sys2Proof.Machine

/-! ### Reset, steps and decoding -/

/-- The machine before the first call is a good state (10_state.md R34; the values of the parameters and of the program
counter are the suggested defaults and the model's choice, log entries 6 and 7). -/
def Obligations.ResetIsAGoodState : Prop :=
  State.reset.Good

/-- With no call waiting nothing happens: the block never acts on its own (70_reset_and_hazards.md R136; that such a step
answers the same state is the model's choice, log entry 1). -/
def Obligations.NothingHappensWithoutACall : Prop :=
  ∀ s : State, s.pending = [] → step s = .next s

/-- A step on a RENDER call runs the instruction that the decoder reads from the call's template and the bytes its shape
consumes at `pc`, on the state with the call taken and its inputs in place (42_render_modes.md R98). -/
def Obligations.StepRunsTheDecodedInstruction : Prop :=
  ∀ (s : State) (inp : RenderInputs) (rest : List HostAction) (bytes after : List Byte) (i : Instr),
    s.pending = .render inp :: rest →
    readBytes s.mem s.pc (shapeOf (normalise inp.template)) = .ok bytes →
    decode s.config.endDirective inp.template bytes = .ok (i, after) →
    step s = exec i { s with pending := rest, inputs := inp }

/-- Whenever the bytes are in the memory there is such an instruction, it is well formed, and it has the shape of the
template: RENDER is total on texts (30_encoding.md R75). -/
def Obligations.InBoundsRenderRunsAWellFormedInstruction : Prop :=
  ∀ (s : State) (inp : RenderInputs) (rest : List HostAction),
    s.pending = .render inp :: rest → s.config.wf → inp.wf → inBounds s.mem s.pc inp.template →
    ∃ i : Instr, i.wf s.config ∧ i.operands.shape = shapeOf (normalise inp.template) ∧
      step s = exec i { s with pending := rest, inputs := inp }

/-- Words written out from the formats of 30_encoding.md R56 decode to the instructions they stand for. -/
def Obligations.FormatWordsDecodeToTheirInstructions : Prop :=
  decode ['e', 'n', 'd'] ['f', 'i', 'm', '(', '0', 'p', ',', 'd', 'a', 't', 'a', '8', ')'] [0b00100000, 0b00001110] =
    .ok (.fim ['f', 'i', 'm', '(', '0', 'p', ',', 'd', 'a', 't', 'a', '8', ')'] 14, []) ∧
  decode ['e', 'n', 'd'] ['i', 's', 'z'] [0b00100011, 0b00000111] = .ok (.isz ['i', 's', 'z'] 3 7, []) ∧
  decode ['e', 'n', 'd'] ['j', 'c', 'n', '('] [0b00010101, 0b11001000] = .ok (.jcn ['j', 'c', 'n', '('] 5 200, []) ∧
  decode ['e', 'n', 'd'] ['j', 'u', 'n', '('] [0b01000001, 0b00100011] = .ok (.jun ['j', 'u', 'n', '('] 0x123, []) ∧
  decode ['e', 'n', 'd'] ['j', 'm', 's', '('] [0b01011111, 0b11111111] = .ok (.jms ['j', 'm', 's', '('] 0xFFF, []) ∧
  decode ['e', 'n', 'd'] ['c', 'l', 'b', '(', ')'] [0b11110000] = .ok (.other ['c', 'l', 'b', '(', ')'], []) ∧
  decode ['e', 'n', 'd'] ['e', 'n', 'd'] [0b11111111] = .ok (.endDirective .other, []) ∧
  decode ['e', 'n', 'd'] ['l', 'd', ' ', 'X'] [0b10100011] = .ok (.artefact ['l', 'd', ' ', 'X'], [])

/-- Decode and encode agree for every well-formed instruction, whatever the bits that are not examined and whatever bytes
follow (30_encoding.md R56, R65, R67). -/
def Obligations.DecodeOfEncodeIsTheInstruction : Prop :=
  ∀ (cfg : Config) (i : Instr) (fill : Byte) (after : List Byte), i.wf cfg →
    decode cfg.endDirective (encodeTemplate cfg.endDirective i) (encode fill i ++ after) = .ok (i, after)

/-- A well-formed instruction whose bytes stand in the memory at `pc` is the one a RENDER call with its template runs. -/
def Obligations.EncodedInstructionRunsFromMemory : Prop :=
  ∀ (s : State) (i : Instr) (fill : Byte) (inp : RenderInputs) (rest : List HostAction),
    i.wf s.config → s.pending = .render inp :: rest →
    inp.template = encodeTemplate s.config.endDirective i →
    (∀ k b, (encode fill i)[k]? = some b → memRead s.mem (s.pc + k) = .ok b) →
    step s = exec i { s with pending := rest, inputs := inp }

/-- After `withFetchWord` the very next step runs the instruction of the table word (log entry 8). -/
def Obligations.FetchWordIsTheNextInstruction : Prop :=
  ∀ (s : State) (nbits w : Nat) (i : Instr), s.mem.wf → s.config.endDirective = Config.defaultEndDirective →
    decodeTableWord nbits w = some i →
    ∃ t : State, step (s.withFetchWord nbits w) = exec i t ∧ t.pc = s.pc ∧ t.pending = s.pending ∧
      t.config = s.config ∧ t.otab = s.otab ∧ t.result = s.result ∧ t.rows = s.rows ∧
      ∀ a, a < s.mem.size → a ≠ s.pc → a ≠ s.pc + 1 → memRead t.mem a = memRead s.mem a

/-! ### Invariants and refinement -/

/-- Every step keeps the invariant: legal parameters, memory in canonical form, every text over the alphabet, the record
last delivered with the fields of its shape (00_scope.md R10; 10_state.md R30, R31). -/
def Obligations.StepKeepsStatesGood : Prop :=
  ∀ s t : State, s.Good → step s = .next t → t.Good

/-- The machine's step on a RENDER call is RENDER as 42_render_modes.md R109 assembles it. The rules assembled there hold
the spec's own decisions D3, D6, D7, D9 to D14, D16, D27 and D31 (log entry 11). -/
def Obligations.RenderCallIsTheAssembledPseudocode : Prop :=
  ∀ (s : State) (inp : RenderInputs) (rest : List HostAction), s.pending = .render inp :: rest →
    (inp.mode = .listing →
      step s = match renderListing s.config s.mem s.pc inp with
        | .error f => .fault f
        | .ok (d, rows, pc') =>
          .next { s with pending := rest, inputs := inp, result := .decoded d, rows := s.rows ++ rows, pc := pc' }) ∧
    (inp.mode = .trace →
      step s = match renderTrace s.config s.mem s.pc inp with
        | .error f => .fault f
        | .ok (d, rows) =>
          .next { s with pending := rest, inputs := inp, result := .decoded d, rows := s.rows ++ rows })

/-- A record that an instruction delivers has the fields of its shape, and its value is in range (10_state.md R31). -/
def Obligations.DeliveredFieldsFitTheShape : Prop :=
  ∀ (i : Instr) (s t : State), exec i s = .next t → ∃ d : Decoded, t.result = .decoded d ∧
    d.shape = i.operands.shape ∧
    (d.custom = true ↔ d.shape = .jcn ∨ d.shape = .jun ∨ d.shape = .jms) ∧
    (d.symbolic ≠ none ↔ d.shape = .jcn ∨ d.shape = .jun ∨ d.shape = .jms) ∧
    (d.reg ≠ none ↔ d.shape = .isz) ∧ (d.cond ≠ none ↔ d.shape = .jcn) ∧ (d.value ≠ none ↔ d.shape ≠ .other) ∧
    (d.shape = .fim ∨ d.shape = .isz ∨ d.shape = .jcn → ∀ v, d.value = some v → v.toNat ≤ 255)

/-! ### The fault -/

/-- Which calls fault, and at which index (60_exceptions.md R113, R116). That `pc` is checked for FIM and OTHER, which use no
bit of its byte, and that the lower index is the one reported, are the spec's own decisions (92_eei_decisions.md D6, D7). -/
def Obligations.OutOfBoundsIsRaisedExactlyAt : Prop :=
  (∀ (s : State) (inp : RenderInputs) (rest : List HostAction) (f : Fault), s.pending = .render inp :: rest →
    (step s = .fault f ↔
      (s.mem.size ≤ s.pc ∧ f = .outOfBounds s.pc) ∨
      (s.pc < s.mem.size ∧ s.mem.size ≤ s.pc + 1 ∧ shapeOf (normalise inp.template) ≠ .other ∧
        f = .outOfBounds (s.pc + 1)))) ∧
  (∀ (s : State) (q : Text) (st : Strictness) (rest : List HostAction) (f : Fault),
    s.pending = .findByName q st :: rest → step s ≠ .fault f) ∧
  (∀ (s : State) (code : Byte) (rest : List HostAction) (f : Fault),
    s.pending = .findByOpcode code :: rest → step s ≠ .fault f) ∧
  (∀ (s : State) (inp : RenderInputs) (rest : List HostAction), s.pending = .render inp :: rest → s.mem.size = 0 →
    step s = .fault (.outOfBounds s.pc))

/-- No step is refused, and only a RENDER call faults (40_lookup.md R86, 60_exceptions.md R126). -/
def Obligations.OnlyRenderCallsStop : Prop :=
  ∀ s : State, (∀ r, step s ≠ .refused r) ∧
    (∀ f, step s = .fault f → ∃ inp rest, s.pending = .render inp :: rest)

/-- 60_exceptions.md R117: a fault leaves everything but the call itself as it was; the same call faults again, whatever was
delivered before; the same call on a memory that holds its bytes completes. -/
def Obligations.FaultIsNotRemembered : Prop :=
  ∀ (s : State) (f : Fault) (inp : RenderInputs) (rest : List HostAction),
    s.pending = .render inp :: rest → step s = .fault f →
    afterFault s = { s with pending := rest } ∧
    (∀ (i₀ : RenderInputs) (r₀ : Result) (rows₀ : List Row) (rest' : List HostAction),
      step { s with pending := .render inp :: rest', inputs := i₀, result := r₀, rows := rows₀ } = .fault f) ∧
    (∀ m : Memory, inBounds m s.pc inp.template → ∃ t, step { s with mem := m } = .next t)

/-! ### The program counter -/

/-- 10_state.md R18 and 42_render_modes.md R107: of all calls, a RENDER call in listing mode that does not fault advances
the program counter, by the width alone; every other call, and every call that faults, leaves it. -/
def Obligations.OnlyAListingRenderAdvancesThePc : Prop :=
  ∀ (s : State) (a : HostAction) (rest : List HostAction), s.pending = a :: rest → isCall a = true →
    (∀ t, step s = .next t →
      (∀ inp, a = .render inp → inp.mode = .listing → inp.wordWidth = .one → t.pc = s.pc + 1) ∧
      (∀ inp, a = .render inp → inp.mode = .listing → inp.wordWidth = .two → t.pc = s.pc + 2) ∧
      ((¬ ∃ inp, a = .render inp ∧ inp.mode = .listing) → t.pc = s.pc)) ∧
    (∀ f, step s = .fault f → (afterFault s).pc = s.pc)

/-! ### Every instruction completes, with what its rule gives

The rows of `CompletesWith` rest on decisions of the spec (log entry 11): every `()` is removed for display (D14), the end
directive is recognised by its whole text (D13) and left alone in trace mode (D31). -/

/-- FIM (41_render_shapes.md R90): completes on every state and operands. That every `data8` and every `p` is meant, and
that the register pair comes from the text, are the spec's own decisions D10 and D11; the row's are D13, D14 and D31 (log
entry 11). -/
def Obligations.FimCompletes : Prop :=
  ∀ (T : Text) (data8 : Byte) (s : State),
    let d : Decoded :=
      { shape := .fim, text := removeAll (replaceAll T ['d', 'a', 't', 'a', '8'] (dec data8.toNat)) ['p'],
        symbolic := none, custom := false, reg := none, value := some (data8.setWidth 12), cond := none }
    CompletesWith (exec (.fim T data8) s) s T d d.text

/-- ISZ (R91). The row rests on the spec's own decisions D13, D14 and D31 (log entry 11). -/
def Obligations.IszCompletes : Prop :=
  ∀ (T : Text) (reg : Nibble) (operand : Byte) (s : State),
    let d : Decoded :=
      { shape := .isz, text := ['i', 's', 'z', '('] ++ dec reg.toNat ++ [','] ++ dec operand.toNat ++ [')'],
        symbolic := none, custom := false, reg := some reg, value := some (operand.setWidth 12), cond := none }
    CompletesWith (exec (.isz T reg operand) s) s T d d.text

/-- JCN (R92). The symbolic form, the template with `address8` replaced, and its use in listings are the spec's own decision
D12, the numeric form in a trace row is D16; the row's others are D13, D14 and D31 (log entry 11). -/
def Obligations.JcnCompletes : Prop :=
  ∀ (T : Text) (cond : Nibble) (address8 : Byte) (s : State),
    let symbolic := replaceAll T ['a', 'd', 'd', 'r', 'e', 's', 's', '8'] (dec address8.toNat)
    let d : Decoded :=
      { shape := .jcn, text := ['j', 'c', 'n', '('] ++ dec cond.toNat ++ [','] ++ dec address8.toNat ++ [')'],
        symbolic := some symbolic, custom := true, reg := none, value := some (address8.setWidth 12),
        cond := some cond }
    CompletesWith (exec (.jcn T cond address8) s) s T d symbolic

/-- JUN (R93). The symbolic form, the template with ADDR12_TOKEN replaced, and its use in listings are the spec's own decision
D12, the numeric form in a trace row is D16; the row's others are D13, D14 and D31 (log entry 11). -/
def Obligations.JunCompletes : Prop :=
  ∀ (T : Text) (address : Addr12) (s : State),
    let symbolic := replaceAll T s.config.addr12Token (dec address.toNat)
    let d : Decoded :=
      { shape := .jun, text := ['j', 'u', 'n', '('] ++ dec address.toNat ++ [')'],
        symbolic := some symbolic, custom := true, reg := none, value := some address, cond := none }
    CompletesWith (exec (.jun T address) s) s T d symbolic

/-- JMS (R94). The symbolic form, the template with ADDR12_TOKEN replaced, and its use in listings are the spec's own decision
D12, the numeric form in a trace row is D16; the row's others are D13, D14 and D31 (log entry 11). -/
def Obligations.JmsCompletes : Prop :=
  ∀ (T : Text) (address : Addr12) (s : State),
    let symbolic := replaceAll T s.config.addr12Token (dec address.toNat)
    let d : Decoded :=
      { shape := .jms, text := ['j', 'm', 's', '('] ++ dec address.toNat ++ [')'],
        symbolic := some symbolic, custom := true, reg := none, value := some address, cond := none }
    CompletesWith (exec (.jms T address) s) s T d symbolic

/-- Any other template (R96): returned verbatim. The row rests on the spec's own decisions D13, D14 and D31 (log
entry 11). -/
def Obligations.OtherCompletes : Prop :=
  ∀ (T : Text) (s : State),
    let d : Decoded :=
      { shape := .other, text := T, symbolic := none, custom := false, reg := none, value := none, cond := none }
    CompletesWith (exec (.other T) s) s T d d.text

/-- The two-character artefact (R89): compacted to its first two characters, then an OTHER template. That everything from
the space on is dropped is the spec's own decision D9; the row's are D13, D14 and D31 (log entry 11). -/
def Obligations.ArtefactCompletes : Prop :=
  ∀ (stored : Text) (s : State), stored[2]? = some ' ' →
    let d : Decoded :=
      { shape := .other, text := stored.take 2, symbolic := none, custom := false, reg := none, value := none,
        cond := none }
    CompletesWith (exec (.artefact stored) s) s (stored.take 2) d d.text

/-- The end directive (42_render_modes.md R102, R106), for the operands of every shape its text may have: the record is
that of the shape; in listing mode no label and the numeric form, in trace mode nothing special. The whole-text test, the
display without `()` and trace mode are the spec's own decisions D13, D14 and D31 (log entry 11). -/
def Obligations.EndDirectiveCompletes : Prop :=
  ∀ (ops : Operands) (s : State),
    let d := recordOf s.config.addr12Token s.config.endDirective ops
    CompletesWith (exec (.endDirective ops) s) s s.config.endDirective d d.text ∧ d.shape = ops.shape ∧
      (ops = .other → d.text = s.config.endDirective)

/-- What no instruction changes when it completes: any byte of memory, the table, the parameters, the calls that wait, the
inputs; in trace mode the program counter; and the rows handed over before (20_memory.md R38, 10_state.md R15). -/
def Obligations.InstructionsChangeOnlyTheirOutputs : Prop :=
  ∀ (i : Instr) (s t : State), exec i s = .next t →
    (∀ a, memRead t.mem a = memRead s.mem a) ∧ t.otab = s.otab ∧ t.config = s.config ∧ t.pending = s.pending ∧
    t.inputs = s.inputs ∧ (s.inputs.mode = .trace → t.pc = s.pc) ∧ s.rows <+: t.rows

/-! ### The shape rules, with their reads and their faults -/

/-- 41_render_shapes.md R90: selection, reads, faults, record. That every `data8` and every `p` is meant, and that the
register pair comes from the text, are the spec's own decisions (D10, D11). -/
def Obligations.FimFillsItsTemplate : Prop :=
  ∀ (s : State) (inp : RenderInputs) (rest : List HostAction) (tail : Text), s.pending = .render inp :: rest →
    normalise inp.template = ['f', 'i', 'm'] ++ tail →
    (s.mem.size ≤ s.pc → step s = .fault (.outOfBounds s.pc)) ∧
    (s.pc + 1 = s.mem.size → step s = .fault (.outOfBounds (s.pc + 1))) ∧
    (∀ b0 b1, memRead s.mem s.pc = .ok b0 → memRead s.mem (s.pc + 1) = .ok b1 →
      ∃ t, step s = .next t ∧ t.result = .decoded
        { shape := .fim,
          text := removeAll (replaceAll (normalise inp.template) ['d', 'a', 't', 'a', '8'] (dec b1.toNat)) ['p'],
          symbolic := none, custom := false, reg := none, value := some (b1.setWidth 12), cond := none })

/-- 41_render_shapes.md R91. -/
def Obligations.IszRendersRegisterAndOperand : Prop :=
  ∀ (s : State) (inp : RenderInputs) (rest : List HostAction) (tail : Text), s.pending = .render inp :: rest →
    normalise inp.template = ['i', 's', 'z'] ++ tail →
    (s.mem.size ≤ s.pc → step s = .fault (.outOfBounds s.pc)) ∧
    (s.pc + 1 = s.mem.size → step s = .fault (.outOfBounds (s.pc + 1))) ∧
    (∀ b0 b1, memRead s.mem s.pc = .ok b0 → memRead s.mem (s.pc + 1) = .ok b1 →
      ∃ t, step s = .next t ∧ t.result = .decoded
        { shape := .isz,
          text := ['i', 's', 'z', '('] ++ dec (b0.toNat % 16) ++ [','] ++ dec b1.toNat ++ [')'],
          symbolic := none, custom := false, reg := some (BitVec.ofNat 4 (b0.toNat % 16)),
          value := some (b1.setWidth 12), cond := none })

/-- 41_render_shapes.md R92. The symbolic form, the template with `address8` replaced and all else kept, is the spec's own
decision D12 (log entry 11). -/
def Obligations.JcnRendersConditionAndAddress : Prop :=
  ∀ (s : State) (inp : RenderInputs) (rest : List HostAction) (tail : Text), s.pending = .render inp :: rest →
    normalise inp.template = ['j', 'c', 'n', '('] ++ tail →
    (s.mem.size ≤ s.pc → step s = .fault (.outOfBounds s.pc)) ∧
    (s.pc + 1 = s.mem.size → step s = .fault (.outOfBounds (s.pc + 1))) ∧
    (∀ b0 b1, memRead s.mem s.pc = .ok b0 → memRead s.mem (s.pc + 1) = .ok b1 →
      ∃ t, step s = .next t ∧ t.result = .decoded
        { shape := .jcn,
          text := ['j', 'c', 'n', '('] ++ dec (b0.toNat % 16) ++ [','] ++ dec b1.toNat ++ [')'],
          symbolic := some (replaceAll (normalise inp.template) ['a', 'd', 'd', 'r', 'e', 's', 's', '8'] (dec b1.toNat)),
          custom := true, reg := none, value := some (b1.setWidth 12),
          cond := some (BitVec.ofNat 4 (b0.toNat % 16)) })

/-- 41_render_shapes.md R93: the high nibble of the address is the low nibble of the first byte. The symbolic form, the
template with ADDR12_TOKEN replaced and all else kept, is the spec's own decision D12 (log entry 11). -/
def Obligations.JunRendersTheTwelveBitAddress : Prop :=
  ∀ (s : State) (inp : RenderInputs) (rest : List HostAction) (tail : Text), s.pending = .render inp :: rest →
    normalise inp.template = ['j', 'u', 'n', '('] ++ tail →
    (s.mem.size ≤ s.pc → step s = .fault (.outOfBounds s.pc)) ∧
    (s.pc + 1 = s.mem.size → step s = .fault (.outOfBounds (s.pc + 1))) ∧
    (∀ b0 b1, memRead s.mem s.pc = .ok b0 → memRead s.mem (s.pc + 1) = .ok b1 →
      ∃ t, step s = .next t ∧ t.result = .decoded
        { shape := .jun,
          text := ['j', 'u', 'n', '('] ++ dec (b0.toNat % 16 * 256 + b1.toNat) ++ [')'],
          symbolic := some (replaceAll (normalise inp.template) s.config.addr12Token
            (dec (b0.toNat % 16 * 256 + b1.toNat))),
          custom := true, reg := none, value := some (BitVec.ofNat 12 (b0.toNat % 16 * 256 + b1.toNat)),
          cond := none })

/-- 41_render_shapes.md R94: as JUN, under its own prefix. The symbolic form, the template with ADDR12_TOKEN replaced and
all else kept, is the spec's own decision D12 (log entry 11). -/
def Obligations.JmsRendersTheTwelveBitAddress : Prop :=
  ∀ (s : State) (inp : RenderInputs) (rest : List HostAction) (tail : Text), s.pending = .render inp :: rest →
    normalise inp.template = ['j', 'm', 's', '('] ++ tail →
    (s.mem.size ≤ s.pc → step s = .fault (.outOfBounds s.pc)) ∧
    (s.pc + 1 = s.mem.size → step s = .fault (.outOfBounds (s.pc + 1))) ∧
    (∀ b0 b1, memRead s.mem s.pc = .ok b0 → memRead s.mem (s.pc + 1) = .ok b1 →
      ∃ t, step s = .next t ∧ t.result = .decoded
        { shape := .jms,
          text := ['j', 'm', 's', '('] ++ dec (b0.toNat % 16 * 256 + b1.toNat) ++ [')'],
          symbolic := some (replaceAll (normalise inp.template) s.config.addr12Token
            (dec (b0.toNat % 16 * 256 + b1.toNat))),
          custom := true, reg := none, value := some (BitVec.ofNat 12 (b0.toNat % 16 * 256 + b1.toNat)),
          cond := none })

/-- 41_render_shapes.md R96: a template with none of the five prefixes is returned verbatim, one byte is read, and a
template that is not the artefact is its own normalised form. That the byte at `pc` is read is the spec's own decision (D6). -/
def Obligations.OtherIsReturnedVerbatim : Prop :=
  ∀ (s : State) (inp : RenderInputs) (rest : List HostAction), s.pending = .render inp :: rest →
    (∀ p ∈ [['f', 'i', 'm'], ['i', 's', 'z'], ['j', 'c', 'n', '('], ['j', 'u', 'n', '('], ['j', 'm', 's', '(']],
      ¬ p <+: normalise inp.template) →
    (s.mem.size ≤ s.pc → step s = .fault (.outOfBounds s.pc)) ∧
    (s.pc < s.mem.size → ∃ t, step s = .next t ∧ t.result = .decoded
      { shape := .other, text := normalise inp.template, symbolic := none, custom := false, reg := none,
        value := none, cond := none }) ∧
    (inp.template[2]? ≠ some ' ' → normalise inp.template = inp.template)

/-- The two-character artefact, by a step: one byte is read and the first two characters are returned (30_encoding.md R70,
41_render_shapes.md R89; that everything from the space on is dropped is the spec's own decision D9). -/
def Obligations.ArtefactIsCompactedByAStep : Prop :=
  ∀ (s : State) (inp : RenderInputs) (rest : List HostAction) (c0 c1 : Char) (stray : Text),
    s.pending = .render inp :: rest → inp.template = c0 :: c1 :: ' ' :: stray → s.pc < s.mem.size →
    ∃ t, step s = .next t ∧ t.result = .decoded
      { shape := .other, text := [c0, c1], symbolic := none, custom := false, reg := none, value := none, cond := none }

/-! ### Step 3: the rows -/

/-- 42_render_modes.md R100: the listing row and everything else a listing-mode call does. That a listing shows the symbolic
form, that the end directive is recognised by its whole text, and that every `()` is removed for display are the spec's own
decisions D12, D13 and D14 (log entry 11). -/
def Obligations.ListingModeShowsOneRowAndAdvances : Prop :=
  ∀ (s : State) (inp : RenderInputs) (rest : List HostAction), s.pending = .render inp :: rest →
    inp.mode = .listing → inBounds s.mem s.pc inp.template →
    ∃ (d : Decoded) (label chosen : Text),
      (normalise inp.template = s.config.endDirective → label = [] ∧ chosen = d.text) ∧
      (normalise inp.template ≠ s.config.endDirective →
        label = inp.label ∧ (d.custom = true → d.symbolic = some chosen) ∧ (d.custom = false → chosen = d.text)) ∧
      step s = .next { s with
        pending := rest
        inputs  := inp
        result  := .decoded d
        rows    := s.rows ++ (if inp.quiet = true then [] else [Row.listing s.pc label (strip chosen)])
        pc      := s.pc + (match inp.wordWidth with | .one => 1 | .two => 2) }

/-- 42_render_modes.md R105: the trace row; the program counter is not touched, the form shown is the numeric one and the
label is printed as given, for the end directive too. The form, the label of the end directive and the removal of every `()`
are the spec's own decisions D16, D31 and D14 (log entry 11). -/
def Obligations.TraceModeShowsOneRowAndStays : Prop :=
  ∀ (s : State) (inp : RenderInputs) (rest : List HostAction), s.pending = .render inp :: rest →
    inp.mode = .trace → inBounds s.mem s.pc inp.template →
    ∃ d : Decoded,
      step s = .next { s with
        pending := rest
        inputs  := inp
        result  := .decoded d
        rows    := s.rows ++ (if inp.quiet = true then [] else [Row.trace inp.label (strip d.text)]) }

/-- 10_state.md R24: `quiet` changes nothing but the row that is handed over, neither the record, nor the fault, nor `pc`. -/
def Obligations.QuietOnlySilences : Prop :=
  ∀ (s : State) (inp : RenderInputs) (rest : List HostAction), s.pending = .render { inp with quiet := true } :: rest →
    let s' : State := { s with pending := .render { inp with quiet := false } :: rest }
    (∃ f, step s = .fault f ∧ step s' = .fault f) ∨
    (∃ t row, step s = .next t ∧ t.rows = s.rows ∧
      step s' = .next { t with rows := s.rows ++ [row], inputs := { inp with quiet := false } })

/-- At most one row a call, none when quiet, none by the lookups (42_render_modes.md R104; that a row is appended to a list is
the spec's own decision D15). -/
def Obligations.AtMostOneRowACall : Prop :=
  ∀ (s t : State) (a : HostAction) (rest : List HostAction), s.pending = a :: rest → step s = .next t →
    (∀ inp, a = .render inp → inp.quiet = true → t.rows = s.rows) ∧
    (∀ inp, a = .render inp → inp.quiet = false → ∃ row, t.rows = s.rows ++ [row]) ∧
    ((∀ inp, a ≠ .render inp) → t.rows = s.rows)

/-- STRIP removes every adjacent `()` and nothing else: a text without the pair stays, and the first pair is removed
before the rest is stripped (42_render_modes.md R103; that every pair is meant is the spec's own decision D14). -/
def Obligations.StripRemovesEveryPair : Prop :=
  (∀ t : Text, (¬ ['(', ')'] <:+: t) → strip t = t) ∧
  (∀ a b : Text, (¬ ['(', ')'] <:+: a ++ ['(']) → strip (a ++ ['(', ')'] ++ b) = a ++ strip b)

/-! ### What does not depend on what -/

/-- The record and the fault are functions of memory, `pc` and template, with ADDR12_TOKEN (41_render_shapes.md R97, which the
spec derives from R88 to R96). -/
def Obligations.RecordDependsOnMemoryPcAndTemplate : Prop :=
  ∀ (s s' : State) (inp inp' : RenderInputs) (rest rest' : List HostAction),
    s.pending = .render inp :: rest → s'.pending = .render inp' :: rest' →
    s'.mem = s.mem → s'.pc = s.pc → inp'.template = inp.template → s'.config.addr12Token = s.config.addr12Token →
    (∃ f, step s = .fault f ∧ step s' = .fault f) ∨
    (∃ t t', step s = .next t ∧ step s' = .next t' ∧ t'.result = t.result)

/-- A memory of the same capacity that agrees in the examined bits gives the same outcome: neither the bits of
30_encoding.md R65 nor any byte but the two at `pc` (20_memory.md R45) reach an output (both the spec's own derivations). -/
def Obligations.UnexaminedBitsReachNoOutput : Prop :=
  ∀ (s : State) (inp : RenderInputs) (rest : List HostAction) (m : Memory), s.pending = .render inp :: rest →
    m.size = s.mem.size →
    (shapeOf (normalise inp.template) ≠ .fim → shapeOf (normalise inp.template) ≠ .other →
      lowNibble (m.peek s.pc) = lowNibble (s.mem.peek s.pc)) →
    (shapeOf (normalise inp.template) ≠ .other → m.peek (s.pc + 1) = s.mem.peek (s.pc + 1)) →
    step { s with mem := m } = mapNext (fun t => { t with mem := m }) (step s)

/-- 10_state.md R33: two calls with equal inputs, program counter, memory and table give equal outputs, whatever was called
before; and a fault is not remembered. -/
def Obligations.CallsRememberNothing : Prop :=
  (∀ (s s' : State) (a : HostAction) (rest rest' : List HostAction), isCall a = true →
    s.pending = a :: rest → s'.pending = a :: rest' →
    s'.config = s.config → s'.otab = s.otab → s'.mem = s.mem → s'.pc = s.pc →
    (∃ f, step s = .fault f ∧ step s' = .fault f) ∨
    (∃ t t' new, step s = .next t ∧ step s' = .next t' ∧ t'.result = t.result ∧ t'.pc = t.pc ∧
      t.rows = s.rows ++ new ∧ t'.rows = s'.rows ++ new)) ∧
  (∀ (s : State) (f : Fault), step s = .fault f → afterFault s = { s with pending := s.pending.tail })

/-- 20_memory.md R38: no call of the block writes a byte of the memory or an entry of the table. -/
def Obligations.CallsWriteNoMemoryAndNoTable : Prop :=
  ∀ (s t : State) (a : HostAction) (rest : List HostAction), s.pending = a :: rest → isCall a = true →
    step s = .next t → t.mem = s.mem ∧ (∀ i, memRead t.mem i = memRead s.mem i) ∧ t.otab = s.otab

/-- No step, the caller's own moves among them, changes the table or the parameters (10_state.md R27,
70_reset_and_hazards.md R137, R139; that the caller has no move that loads a table is the model's choice, log entry 1). -/
def Obligations.TableAndParametersNeverChange : Prop :=
  ∀ s t : State, step s = .next t → t.otab = s.otab ∧ t.config = s.config

/-! ### The lookups -/

/-- The first entry in table order whose key is the query, and nothing else is changed (40_lookup.md R82; that the query is
compared at its full length is the spec's own decision D20). -/
def Obligations.FindByNameReturnsTheFirstMatch : Prop :=
  ∀ (s : State) (query : Text) (strictness : Strictness) (rest : List HostAction),
    s.pending = .findByName query strictness :: rest →
    let key : OpcodeEntry → Text := fun e => if strictness = .short then e.mnemonic.take 3 else e.mnemonic
    ∃ r : LookupResult, step s = .next { s with pending := rest, result := .lookup r } ∧
      ((∃ before e after, s.otab = before ++ e :: after ∧ key e = query ∧ (∀ x ∈ before, key x ≠ query) ∧
          r = .found e) ∨
        ((∀ x ∈ s.otab, key x ≠ query) ∧ r = .notFound))

/-- 40_lookup.md R84: the last entry in table order with that opcode, and nothing else is changed. -/
def Obligations.FindByOpcodeReturnsTheLastMatch : Prop :=
  ∀ (s : State) (code : Byte) (rest : List HostAction), s.pending = .findByOpcode code :: rest →
    ∃ r : LookupResult, step s = .next { s with pending := rest, result := .lookup r } ∧
      ((∃ before e after, s.otab = before ++ e :: after ∧ e.opcode = code ∧ (∀ x ∈ after, x.opcode ≠ code) ∧
          r = .found e) ∨
        ((∀ x ∈ s.otab, x.opcode ≠ code) ∧ r = .notFound))

/-- The corner cases of FIND_BY_NAME under SHORT (40_lookup.md R83): a query of more than three characters finds nothing, a
shorter one finds only a mnemonic equal to it, and the empty query finds only an empty mnemonic under either strictness.That
the query itself is not truncated is the spec's own decision D20 (log entry 11). -/
def Obligations.ShortQueriesMatchByLength : Prop :=
  ∀ (table : List OpcodeEntry) (query : Text),
    (3 < query.length → findByName table query .short = .notFound) ∧
    (query.length < 3 → ∀ e, findByName table query .short = .found e → e.mnemonic = query) ∧
    (∀ st e, findByName table [] st = .found e → e.mnemonic = [])

/-- The sentinel is shown as opcode -1 and mnemonic `N/A`, and no entry is shown so (10_state.md R28). -/
def Obligations.SentinelIsNoEntry : Prop :=
  shownRecord .notFound = (-1, ['N', '/', 'A']) ∧ ∀ e : OpcodeEntry, shownRecord (.found e) ≠ shownRecord .notFound

/-- The numeric codes of the error kinds (60_exceptions.md R111) and what reports them: the fault, a lookup that found
nothing (R118); a record reports none. -/
def Obligations.ErrorKindCodes : Prop :=
  ErrorKind.none.code = 0 ∧ ErrorKind.outOfBounds.code = 1 ∧ ErrorKind.unknownMnemonic.code = 2 ∧
  ErrorKind.malformedTemplate.code = 3 ∧
  (∀ i, faultKind (.outOfBounds i) = .outOfBounds) ∧ resultKind (.lookup .notFound) = .unknownMnemonic ∧
  (∀ e, resultKind (.lookup (.found e)) = .none) ∧ (∀ d, resultKind (.decoded d) = .none)

/-! ### Text and operand primitives -/

/-- `dec(n)` is the shortest decimal numeral (00_scope.md R11; the form is the spec's own decision D3). -/
def Obligations.DecIsTheShortestNumeral : Prop :=
  ∀ n : Nat,
    (∀ c ∈ dec n, '0' ≤ c ∧ c ≤ '9') ∧
    (dec n).foldl (fun v c => v * 10 + (c.toNat - '0'.toNat)) 0 = n ∧
    dec n ≠ [] ∧ (n ≠ 0 → (dec n).head? ≠ some '0') ∧ dec 0 = ['0']

/-- `replace_all` for a non-empty pattern (00_scope.md R10): the leftmost occurrence is replaced and the scan goes on after
it, and a text without the pattern stays. -/
def Obligations.ReplaceAllIsLeftmostAndNotRescanned : Prop :=
  ∀ a b : Text, a ≠ [] →
    (∀ before after : Text, (∀ k, k < before.length → ¬ a <+: (before ++ a ++ after).drop k) →
      replaceAll (before ++ a ++ after) a b = before ++ b ++ replaceAll after a b) ∧
    (∀ t : Text, ¬ a <:+: t → replaceAll t a b = t)

/-- NORMALISE and its corner cases (41_render_shapes.md R89; the test and what is dropped are the spec's own decision D9). -/
def Obligations.NormaliseCompactsTheArtefact : Prop :=
  ∀ t : Text,
    (3 ≤ t.length → t[2]? = some ' ' → normalise t = t.take 2) ∧
    (¬ (3 ≤ t.length ∧ t[2]? = some ' ') → normalise t = t) ∧
    normalise (normalise t) = normalise t ∧
    (t[2]? = some ' ' → shapeOf (normalise t) = .other) ∧
    (shapeOf t ≠ .other → normalise t = t)

/-- 41_render_shapes.md R88: the dispatch by prefix, in which exactly one shape is selected. -/
def Obligations.ShapeIsSelectedByPrefix : Prop :=
  ∀ T : Text,
    (shapeOf T = .fim ↔ ['f', 'i', 'm'] <+: T) ∧ (shapeOf T = .isz ↔ ['i', 's', 'z'] <+: T) ∧
    (shapeOf T = .jcn ↔ ['j', 'c', 'n', '('] <+: T) ∧ (shapeOf T = .jun ↔ ['j', 'u', 'n', '('] <+: T) ∧
    (shapeOf T = .jms ↔ ['j', 'm', 's', '('] <+: T) ∧
    (shapeOf T = .other ↔ ∀ p ∈ [['f', 'i', 'm'], ['i', 's', 'z'], ['j', 'c', 'n', '('], ['j', 'u', 'n', '('],
      ['j', 'm', 's', '(']], ¬ p <+: T)

/-- 30_encoding.md R63: the 12-bit address. -/
def Obligations.AddressIsAssembledFromNibbleAndByte : Prop :=
  ∀ b0 b1 : Byte,
    (addr12 b0 b1).toNat = b0.toNat % 16 * 256 + b1.toNat ∧
    (addr12 b0 b1).toNat = ((b0.toNat &&& 0x0F) <<< 8) ||| b1.toNat ∧
    (addr12 b0 b1).toNat ≤ 4095

/-- 30_encoding.md R62: the 4-bit field, on which the upper nibble has no influence. -/
def Obligations.FieldIsTheLowNibble : Prop :=
  (∀ b : Byte, (lowNibble b).toNat = b.toNat &&& 0x0F ∧ (lowNibble b).toNat = b.toNat % 16 ∧
    ∀ b' : Byte, b'.toNat % 16 = b.toNat % 16 → lowNibble b' = lowNibble b) ∧
  lowNibble 0x23 = 3 ∧ lowNibble 0x73 = 3 ∧ lowNibble 0x03 = 3

/-- 20_memory.md R37: a read below the capacity gives the byte there, any other read faults with its index. -/
def Obligations.MemReadChecksTheBound : Prop :=
  ∀ (m : Memory) (a : Nat),
    (a < m.size → memRead m a = .ok (m.peek a)) ∧ (m.size ≤ a → memRead m a = .error (.outOfBounds a))

/-! ### The caller -/

/-- The memory a caller supplies holds its bytes, has their number as its capacity, and nothing beyond
(10_state.md R30, 20_memory.md R37). -/
def Obligations.SuppliedMemoryHoldsItsBytes : Prop :=
  ∀ (s : State) (bytes : List Byte) (rest : List HostAction), s.pending = .supplyMemory bytes :: rest →
    ∃ m : Memory, step s = .next { s with pending := rest, mem := m } ∧ m.wf ∧
      (∀ i b, bytes[i]? = some b → memRead m i = .ok b) ∧
      (∀ i, bytes.length ≤ i → memRead m i = .error (.outOfBounds i))

/-- Between calls a caller may put the program counter anywhere (70_reset_and_hazards.md R147, R149). -/
def Obligations.CallerMayMoveThePc : Prop :=
  ∀ (s : State) (pc : Nat) (rest : List HostAction), s.pending = .movePc pc :: rest →
    step s = .next { s with pending := rest, pc := pc }

/-- The reference walker (70_reset_and_hazards.md R152) ends within as many calls as there are slots ahead, plus one: at the
end of memory, at an opcode without an entry, or with the fault at the end of memory; its walk is a linear sweep forward. The
walker is the spec's own scaffolding (D25). -/
def Obligations.WalkEndsAtMemoryEndUnknownOpcodeOrFault : Prop :=
  ∀ (s t : State) (e : WalkEnd), walk (s.mem.size - s.pc + 1) s = (t, e) →
    s.pc ≤ t.pc ∧ t.mem = s.mem ∧
    ((e = .endOfMemory ∧ s.mem.size ≤ t.pc) ∨
      (e = .unknownMnemonic ∧ t.pc < s.mem.size ∧ ∀ x ∈ s.otab, x.opcode ≠ s.mem.peek t.pc) ∨
      (e = .fault (.outOfBounds s.mem.size) ∧ t.pc + 1 = s.mem.size))
end

