-- ==== Sys2Proof/Laws/Memory.lean ====
section
/-! SUPPORT. The laws of the instruction memory: every operation keeps the canonical form, and a read after a write gives
what was written there and what was there before elsewhere. -/

namespace Sys2Proof.Machine

/-- Cells whose indexes rise strictly, none of them equal to what an unlisted slot reads as. -/
abbrev cellsRise (cs : List Host.Cell) : Prop :=
  cs.Pairwise (fun c d => c.1 < d.1)

theorem memRead_of_lt {m : Memory} {a : Nat} (h : a < m.size) : memRead m a = .ok (m.peek a) := by
  simp [memRead, Nat.not_le.mpr h]

theorem memRead_of_ge {m : Memory} {a : Nat} (h : m.size ≤ a) : memRead m a = .error (.outOfBounds a) := by
  simp [memRead, h]

/-- What `readPair` can answer. -/
theorem readPair_eq (m : Memory) (pc : Nat) :
    readPair m pc =
      if m.size ≤ pc then .error (.outOfBounds pc)
      else if m.size ≤ pc + 1 then .error (.outOfBounds (pc + 1))
      else .ok (m.peek pc, m.peek (pc + 1)) := by
  unfold readPair memRead
  split_ifs <;> rfl

/-! ### Putting a cell -/

theorem mem_putCell {a : Nat} {b : Byte} {x : Host.Cell} :
    ∀ {cs : List Host.Cell}, x ∈ putCell a b cs → x ∈ cs ∨ (x = (a, b) ∧ b ≠ fillByte)
  | [], h => by
    unfold putCell at h
    split at h
    · cases h
    · rename_i hb
      exact .inr ⟨by simpa using h, hb⟩
  | c :: cs, h => by
    unfold putCell at h
    split at h
    · split at h
      · exact .inl h
      · rename_i hb
        rcases List.mem_cons.mp h with h | h
        · exact .inr ⟨h, hb⟩
        · exact .inl h
    · split at h
      · split at h
        · exact .inl (List.mem_cons_of_mem _ h)
        · rename_i hb
          rcases List.mem_cons.mp h with h | h
          · exact .inr ⟨h, hb⟩
          · exact .inl (List.mem_cons_of_mem _ h)
      · rcases List.mem_cons.mp h with h | h
        · exact .inl (h ▸ List.mem_cons_self)
        · exact (mem_putCell h).imp (List.mem_cons_of_mem _) id

theorem putCell_rises (a : Nat) (b : Byte) : ∀ {cs : List Host.Cell}, cellsRise cs → cellsRise (putCell a b cs)
  | [], _ => by
    unfold putCell
    split <;> simp [cellsRise]
  | c :: cs, h => by
    have hc : ∀ d ∈ cs, c.1 < d.1 := (List.pairwise_cons.mp h).1
    have hcs : cellsRise cs := h.of_cons
    unfold putCell
    split
    · rename_i hlt
      split
      · exact h
      · refine List.pairwise_cons.mpr ⟨fun d hd => ?_, h⟩
        rcases List.mem_cons.mp hd with rfl | hd
        · exact hlt
        · exact hlt.trans (hc d hd)
    · split
      · rename_i heq
        split
        · exact hcs
        · exact List.pairwise_cons.mpr ⟨fun d hd => by simpa [heq] using hc d hd, hcs⟩
      · rename_i hnlt hne
        refine List.pairwise_cons.mpr ⟨fun d hd => ?_, putCell_rises a b hcs⟩
        rcases mem_putCell hd with hd | ⟨rfl, -⟩
        · exact hc d hd
        · exact Nat.lt_of_le_of_ne (Nat.not_lt.mp hnlt) (Ne.symm hne)

/-- The owner's store keeps the canonical form. -/
theorem Memory.store_wf {m : Memory} (h : m.wf) (a : Nat) (b : Byte) : (m.store a b).wf := by
  unfold Memory.store
  split
  · rename_i hlt
    refine ⟨putCell_rises a b h.1, fun c hc => ?_⟩
    rcases mem_putCell hc with hc | ⟨rfl, hb⟩
    · exact h.2 c hc
    · exact ⟨hlt, hb⟩
  · exact h

/-! ### Reading after a store -/

theorem lookup_none_of_lt {a : Nat} : ∀ {cs : List Host.Cell}, (∀ c ∈ cs, a < c.1) → cs.lookup a = none
  | [], _ => rfl
  | c :: cs, h => by
    have hne : (a == c.1) = false := by simpa using (h c List.mem_cons_self).ne
    rw [show c = (c.1, c.2) from rfl, List.lookup_cons, hne]
    exact lookup_none_of_lt fun d hd => h d (List.mem_cons_of_mem _ hd)

theorem lookup_putCell_self (a : Nat) (b : Byte) :
    ∀ {cs : List Host.Cell}, cellsRise cs → ((putCell a b cs).lookup a).getD fillByte = b
  | [], _ => by
    unfold putCell
    split
    · rename_i hb; simp [hb]
    · simp
  | c :: cs, h => by
    have hc : ∀ d ∈ cs, c.1 < d.1 := (List.pairwise_cons.mp h).1
    unfold putCell
    split
    · rename_i hlt
      split
      · rename_i hb
        rw [lookup_none_of_lt (by
          intro d hd
          rcases List.mem_cons.mp hd with rfl | hd
          · exact hlt
          · exact hlt.trans (hc d hd))]
        simp [hb]
      · simp
    · split
      · rename_i heq
        split
        · rename_i hb
          rw [lookup_none_of_lt (fun d hd => heq ▸ hc d hd)]
          simp [hb]
        · simp
      · rename_i hne
        have hne' : (a == c.1) = false := by simpa using hne
        rw [show c = (c.1, c.2) from rfl, List.lookup_cons, hne']
        exact lookup_putCell_self a b h.of_cons

theorem lookup_putCell_ne {a x : Nat} (b : Byte) (hx : x ≠ a) :
    ∀ {cs : List Host.Cell}, cellsRise cs → (putCell a b cs).lookup x = cs.lookup x
  | [], _ => by
    unfold putCell
    split
    · rfl
    · have hxa : (x == a) = false := by simpa using hx
      simp [List.lookup_cons, hxa]
  | c :: cs, h => by
    have hxa : (x == a) = false := by simpa using hx
    unfold putCell
    split
    · split
      · rfl
      · rw [List.lookup_cons, hxa]
    · split
      · rename_i heq
        have hxc : (x == c.1) = false := by simpa [← heq] using hx
        split
        · rw [show c = (c.1, c.2) from rfl, List.lookup_cons, hxc]
        · rw [List.lookup_cons, hxa]
          rw [show c = (c.1, c.2) from rfl, List.lookup_cons, hxc]
      · rw [show c = (c.1, c.2) from rfl, List.lookup_cons, List.lookup_cons, lookup_putCell_ne b hx h.of_cons]

@[simp] theorem Memory.store_size (m : Memory) (a : Nat) (b : Byte) : (m.store a b).size = m.size := by
  unfold Memory.store; split <;> rfl

theorem Memory.peek_store_self {m : Memory} (h : m.wf) {a : Nat} (ha : a < m.size) (b : Byte) :
    (m.store a b).peek a = b := by
  simpa [Memory.store, Memory.peek, ha] using lookup_putCell_self a b h.1

theorem Memory.peek_store_ne {m : Memory} (h : m.wf) {a x : Nat} (b : Byte) (hx : x ≠ a) :
    (m.store a b).peek x = m.peek x := by
  unfold Memory.store
  split
  · simp [Memory.peek, lookup_putCell_ne b hx h.1]
  · rfl

/-! ### Growing and supplying -/

theorem Memory.grow_wf {m : Memory} (h : m.wf) (n : Nat) : (m.grow n).wf :=
  ⟨h.1, fun c hc => ⟨(h.2 c hc).1.trans_le (le_max_left _ _), (h.2 c hc).2⟩⟩

@[simp] theorem Memory.grow_size (m : Memory) (n : Nat) : (m.grow n).size = max m.size n := rfl

@[simp] theorem Memory.grow_peek (m : Memory) (n a : Nat) : (m.grow n).peek a = m.peek a := rfl

theorem mem_cellsFrom {x : Host.Cell} : ∀ {a : Nat} {bs : List Byte}, x ∈ cellsFrom a bs →
    a ≤ x.1 ∧ x.1 < a + bs.length ∧ x.2 ≠ fillByte
  | _, [], h => by cases h
  | a, b :: bs, h => by
    unfold cellsFrom at h
    split at h
    · have := mem_cellsFrom h
      simp only [List.length_cons]
      exact ⟨by omega, by omega, this.2.2⟩
    · rename_i hb
      rcases List.mem_cons.mp h with rfl | h
      · exact ⟨le_refl _, by simp, hb⟩
      · have := mem_cellsFrom h
        simp only [List.length_cons]
        exact ⟨by omega, by omega, this.2.2⟩

theorem cellsFrom_rises : ∀ (a : Nat) (bs : List Byte), cellsRise (cellsFrom a bs)
  | _, [] => List.Pairwise.nil
  | a, b :: bs => by
    unfold cellsFrom
    split
    · exact cellsFrom_rises (a + 1) bs
    · exact List.pairwise_cons.mpr ⟨fun d hd => (mem_cellsFrom hd).1, cellsFrom_rises (a + 1) bs⟩

/-- The memory a caller supplies is in canonical form. -/
theorem Memory.ofBytes_wf (bytes : List Byte) : (Memory.ofBytes bytes).wf :=
  ⟨cellsFrom_rises 0 bytes, fun c hc => by
    have := mem_cellsFrom hc
    exact ⟨by simpa [Memory.ofBytes] using this.2.1, this.2.2⟩⟩

@[simp] theorem Memory.ofBytes_size (bytes : List Byte) : (Memory.ofBytes bytes).size = bytes.length := rfl

end Sys2Proof.Machine
end

