-- ==== Sys2Proof/Laws/State.lean ====
section
/-! SUPPORT. One lemma per field per update of the state, and the same for the shared operations that update it. -/

namespace Sys2Proof.Machine

@[simp] theorem State.withPending_config (s : State) (v : List HostAction) : (s.withPending v).config = s.config := rfl
@[simp] theorem State.withPending_otab (s : State) (v : List HostAction) : (s.withPending v).otab = s.otab := rfl
@[simp] theorem State.withPending_mem (s : State) (v : List HostAction) : (s.withPending v).mem = s.mem := rfl
@[simp] theorem State.withPending_pc (s : State) (v : List HostAction) : (s.withPending v).pc = s.pc := rfl
@[simp] theorem State.withPending_pending (s : State) (v : List HostAction) : (s.withPending v).pending = v := rfl
@[simp] theorem State.withPending_inputs (s : State) (v : List HostAction) : (s.withPending v).inputs = s.inputs := rfl
@[simp] theorem State.withPending_result (s : State) (v : List HostAction) : (s.withPending v).result = s.result := rfl
@[simp] theorem State.withPending_rows (s : State) (v : List HostAction) : (s.withPending v).rows = s.rows := rfl

@[simp] theorem State.withInputs_config (s : State) (v : RenderInputs) : (s.withInputs v).config = s.config := rfl
@[simp] theorem State.withInputs_otab (s : State) (v : RenderInputs) : (s.withInputs v).otab = s.otab := rfl
@[simp] theorem State.withInputs_mem (s : State) (v : RenderInputs) : (s.withInputs v).mem = s.mem := rfl
@[simp] theorem State.withInputs_pc (s : State) (v : RenderInputs) : (s.withInputs v).pc = s.pc := rfl
@[simp] theorem State.withInputs_pending (s : State) (v : RenderInputs) : (s.withInputs v).pending = s.pending := rfl
@[simp] theorem State.withInputs_inputs (s : State) (v : RenderInputs) : (s.withInputs v).inputs = v := rfl
@[simp] theorem State.withInputs_result (s : State) (v : RenderInputs) : (s.withInputs v).result = s.result := rfl
@[simp] theorem State.withInputs_rows (s : State) (v : RenderInputs) : (s.withInputs v).rows = s.rows := rfl

@[simp] theorem State.withResult_config (s : State) (v : Result) : (s.withResult v).config = s.config := rfl
@[simp] theorem State.withResult_otab (s : State) (v : Result) : (s.withResult v).otab = s.otab := rfl
@[simp] theorem State.withResult_mem (s : State) (v : Result) : (s.withResult v).mem = s.mem := rfl
@[simp] theorem State.withResult_pc (s : State) (v : Result) : (s.withResult v).pc = s.pc := rfl
@[simp] theorem State.withResult_pending (s : State) (v : Result) : (s.withResult v).pending = s.pending := rfl
@[simp] theorem State.withResult_inputs (s : State) (v : Result) : (s.withResult v).inputs = s.inputs := rfl
@[simp] theorem State.withResult_result (s : State) (v : Result) : (s.withResult v).result = v := rfl
@[simp] theorem State.withResult_rows (s : State) (v : Result) : (s.withResult v).rows = s.rows := rfl

@[simp] theorem State.withPc_config (s : State) (v : Nat) : (s.withPc v).config = s.config := rfl
@[simp] theorem State.withPc_otab (s : State) (v : Nat) : (s.withPc v).otab = s.otab := rfl
@[simp] theorem State.withPc_mem (s : State) (v : Nat) : (s.withPc v).mem = s.mem := rfl
@[simp] theorem State.withPc_pc (s : State) (v : Nat) : (s.withPc v).pc = v := rfl
@[simp] theorem State.withPc_pending (s : State) (v : Nat) : (s.withPc v).pending = s.pending := rfl
@[simp] theorem State.withPc_inputs (s : State) (v : Nat) : (s.withPc v).inputs = s.inputs := rfl
@[simp] theorem State.withPc_result (s : State) (v : Nat) : (s.withPc v).result = s.result := rfl
@[simp] theorem State.withPc_rows (s : State) (v : Nat) : (s.withPc v).rows = s.rows := rfl

@[simp] theorem State.withMem_config (s : State) (v : Memory) : (s.withMem v).config = s.config := rfl
@[simp] theorem State.withMem_otab (s : State) (v : Memory) : (s.withMem v).otab = s.otab := rfl
@[simp] theorem State.withMem_mem (s : State) (v : Memory) : (s.withMem v).mem = v := rfl
@[simp] theorem State.withMem_pc (s : State) (v : Memory) : (s.withMem v).pc = s.pc := rfl
@[simp] theorem State.withMem_pending (s : State) (v : Memory) : (s.withMem v).pending = s.pending := rfl
@[simp] theorem State.withMem_inputs (s : State) (v : Memory) : (s.withMem v).inputs = s.inputs := rfl
@[simp] theorem State.withMem_result (s : State) (v : Memory) : (s.withMem v).result = s.result := rfl
@[simp] theorem State.withMem_rows (s : State) (v : Memory) : (s.withMem v).rows = s.rows := rfl

@[simp] theorem State.addRows_config (s : State) (v : List Row) : (s.addRows v).config = s.config := rfl
@[simp] theorem State.addRows_otab (s : State) (v : List Row) : (s.addRows v).otab = s.otab := rfl
@[simp] theorem State.addRows_mem (s : State) (v : List Row) : (s.addRows v).mem = s.mem := rfl
@[simp] theorem State.addRows_pc (s : State) (v : List Row) : (s.addRows v).pc = s.pc := rfl
@[simp] theorem State.addRows_pending (s : State) (v : List Row) : (s.addRows v).pending = s.pending := rfl
@[simp] theorem State.addRows_inputs (s : State) (v : List Row) : (s.addRows v).inputs = s.inputs := rfl
@[simp] theorem State.addRows_result (s : State) (v : List Row) : (s.addRows v).result = s.result := rfl
@[simp] theorem State.addRows_rows (s : State) (v : List Row) : (s.addRows v).rows = s.rows ++ v := rfl

/-! ### Step 3 of RENDER: what `deliver` does to each field -/

@[simp] theorem deliver_config (d : Decoded) (T : Text) (s : State) : (deliver d T s).config = s.config := by
  unfold deliver; split <;> rfl

@[simp] theorem deliver_otab (d : Decoded) (T : Text) (s : State) : (deliver d T s).otab = s.otab := by
  unfold deliver; split <;> rfl

@[simp] theorem deliver_mem (d : Decoded) (T : Text) (s : State) : (deliver d T s).mem = s.mem := by
  unfold deliver; split <;> rfl

@[simp] theorem deliver_pending (d : Decoded) (T : Text) (s : State) : (deliver d T s).pending = s.pending := by
  unfold deliver; split <;> rfl

@[simp] theorem deliver_inputs (d : Decoded) (T : Text) (s : State) : (deliver d T s).inputs = s.inputs := by
  unfold deliver; split <;> rfl

@[simp] theorem deliver_result (d : Decoded) (T : Text) (s : State) : (deliver d T s).result = .decoded d := by
  unfold deliver; split <;> rfl

theorem deliver_pc_listing (d : Decoded) (T : Text) (s : State) (h : s.inputs.mode = .listing) :
    (deliver d T s).pc = s.pc + slots s.inputs.wordWidth := by
  simp [deliver, h, listingStep]

theorem deliver_pc_trace (d : Decoded) (T : Text) (s : State) (h : s.inputs.mode = .trace) :
    (deliver d T s).pc = s.pc := by
  simp [deliver, h]

theorem deliver_rows_listing (d : Decoded) (T : Text) (s : State) (h : s.inputs.mode = .listing) :
    (deliver d T s).rows = s.rows ++ emit s.inputs.quiet
      (.listing s.pc (listingLabel s.config T s.inputs.label) (strip (listingForm s.config T d))) := by
  simp [deliver, h, listingStep]

theorem deliver_rows_trace (d : Decoded) (T : Text) (s : State) (h : s.inputs.mode = .trace) :
    (deliver d T s).rows = s.rows ++ emit s.inputs.quiet (.trace s.inputs.label (strip d.text)) := by
  simp [deliver, h, traceStep]

/-! ### After a fault -/

@[simp] theorem afterFault_config (s : State) : (afterFault s).config = s.config := rfl
@[simp] theorem afterFault_otab (s : State) : (afterFault s).otab = s.otab := rfl
@[simp] theorem afterFault_mem (s : State) : (afterFault s).mem = s.mem := rfl
@[simp] theorem afterFault_pc (s : State) : (afterFault s).pc = s.pc := rfl
@[simp] theorem afterFault_inputs (s : State) : (afterFault s).inputs = s.inputs := rfl
@[simp] theorem afterFault_result (s : State) : (afterFault s).result = s.result := rfl
@[simp] theorem afterFault_rows (s : State) : (afterFault s).rows = s.rows := rfl

@[simp] theorem afterFault_pending (s : State) : (afterFault s).pending = s.pending.tail := rfl

end Sys2Proof.Machine
end

