-- ==== Sys2Proof/Laws/Text.lean ====
section
/-! SUPPORT. The small lemmas of the text primitives, of NORMALISE and of SHAPE. -/

namespace Sys2Proof.Machine

theorem startsWith_iff (t p : Text) : startsWith t p = true ↔ ∃ rest, t = p ++ rest := by
  simp only [startsWith, decide_eq_true_eq]
  constructor
  · intro h
    exact ⟨t.drop p.length, by conv_lhs => rw [← List.take_append_drop p.length t, h]⟩
  · rintro ⟨rest, rfl⟩
    exact List.take_left

theorem isArtefact_iff (t : Text) : isArtefact t = true ↔ t[2]? = some ' ' := by
  simp [isArtefact]

theorem normalise_of_artefact {t : Text} (h : isArtefact t = true) : normalise t = t.take 2 := by
  simp [normalise, h]

theorem normalise_of_not_artefact {t : Text} (h : isArtefact t = false) : normalise t = t := by
  simp [normalise, h]

theorem normalise_not_artefact (t : Text) : isArtefact (normalise t) = false := by
  cases h : isArtefact t with
  | false => rw [normalise_of_not_artefact h, h]
  | true => simp [normalise_of_artefact h, isArtefact]

/-- A text with a space at position 2 has none of the five prefixes (41_render_shapes.md R89). -/
theorem shapeOf_of_length_two {t : Text} (h : t.length ≤ 2) : shapeOf t = .other := by
  match t, h with
  | [], _ => decide
  | [_], _ => simp [shapeOf, startsWith, fimPrefix, iszPrefix, jcnPrefix, junPrefix, jmsPrefix]
  | [_, _], _ => simp [shapeOf, startsWith, fimPrefix, iszPrefix, jcnPrefix, junPrefix, jmsPrefix]
  | _ :: _ :: _ :: _, h => simp at h

theorem shapeOf_normalise_of_artefact {t : Text} (h : isArtefact t = true) : shapeOf (normalise t) = .other := by
  apply shapeOf_of_length_two
  rw [normalise_of_artefact h]
  exact List.length_take_le 2 t

@[simp] theorem printable_nil : printable [] = true := rfl

@[simp] theorem printable_cons (c : Char) (t : Text) : printable (c :: t) = (isPrintable c && printable t) := rfl

@[simp] theorem printable_append (a b : Text) : printable (a ++ b) = (printable a && printable b) :=
  List.all_append

/-- Taking characters keeps a text over the alphabet. -/
theorem printable_take {t : Text} (h : printable t = true) (n : Nat) : printable (t.take n) = true := by
  simp only [printable, List.all_eq_true] at *
  exact fun c hc => h c (List.mem_of_mem_take hc)

theorem printable_normalise {t : Text} (h : printable t = true) : printable (normalise t) = true := by
  unfold normalise
  split
  · exact printable_take h 2
  · exact h

/-- What the scan writes is over the alphabet when the text and the inserted text are. -/
theorem printable_replaceScan {a b : Text} (hb : printable b = true) :
    ∀ (t : Text) (skip : Nat), printable t = true → printable (replaceScan a b skip t) = true
  | [], skip, _ => by cases skip <;> rfl
  | c :: cs, skip + 1, h => by
    simp only [printable_cons, Bool.and_eq_true] at h
    exact printable_replaceScan hb cs skip h.2
  | c :: cs, 0, h => by
    simp only [printable_cons, Bool.and_eq_true] at h
    unfold replaceScan
    split
    · simp [hb, printable_replaceScan hb cs _ h.2]
    · simp [h.1, printable_replaceScan hb cs 0 h.2]

theorem printable_replaceAll {t a b : Text} (ht : printable t = true) (hb : printable b = true) :
    printable (replaceAll t a b) = true := by
  unfold replaceAll
  split
  · exact ht
  · exact printable_replaceScan hb t 0 ht

theorem printable_strip {t : Text} (h : printable t = true) : printable (strip t) = true := by
  unfold strip removeAll
  exact printable_replaceAll h printable_nil

theorem isPrintable_digit (d : Nat) : isPrintable (digit d) = true := by
  have h : ∀ k : Fin 10, isPrintable (Char.ofNat (48 + k.val)) = true := by decide
  exact h ⟨d % 10, Nat.mod_lt _ (by decide)⟩

theorem printable_decDigits : ∀ (fuel n : Nat) (acc : Text), printable acc = true →
    printable (decDigits fuel n acc) = true
  | 0, _, _, h => h
  | fuel + 1, n, acc, h => by
    unfold decDigits
    split
    · simp [h, isPrintable_digit]
    · exact printable_decDigits fuel _ _ (by simp [h, isPrintable_digit])

theorem printable_dec (n : Nat) : printable (dec n) = true :=
  printable_decDigits _ _ _ rfl

end Sys2Proof.Machine
end

