-- ==== Sys2Proof/Laws/Ops.lean ====
section
/-! SUPPORT. One lemma for each shared operation that says once what it can do: the reads of a shape, taking operands from
bytes, decoding, fetching, running an instruction, performing an action, one step. -/

namespace Sys2Proof.Machine

/-- The reads of a shape succeed with the bytes at `pc`, or fault at the first index that is not in the memory. -/
theorem readBytes_eq (m : Memory) (pc : Nat) (sh : Shape) :
    readBytes m pc sh =
      if m.size ≤ pc then .error (.outOfBounds pc)
      else if sh = .other then .ok [m.peek pc]
      else if m.size ≤ pc + 1 then .error (.outOfBounds (pc + 1))
      else .ok [m.peek pc, m.peek (pc + 1)] := by
  cases sh <;> simp only [readBytes, readPair_eq, memRead] <;> split_ifs <;> simp_all

/-- The operands a shape takes from two bytes. -/
def operandsOf (b0 b1 : Byte) : Shape → Operands
  | .fim => .fim b1
  | .isz => .isz (lowNibble b0) b1
  | .jcn => .jcn (lowNibble b0) b1
  | .jun => .jun (addr12 b0 b1)
  | .jms => .jms (addr12 b0 b1)
  | .other => .other

theorem resolve_one (b0 : Byte) : resolve .other [b0] = .ok (.other, []) := rfl

theorem resolve_two {sh : Shape} (h : sh ≠ .other) (b0 b1 : Byte) (rest : List Byte) :
    resolve sh (b0 :: b1 :: rest) = .ok (operandsOf b0 b1 sh, rest) := by
  cases sh <;> first | rfl | exact absurd rfl h

theorem operandsOf_shape (b0 b1 : Byte) (sh : Shape) : (operandsOf b0 b1 sh).shape = sh := by
  cases sh <;> rfl

/-- What a fetch answers: the instruction of the template and the bytes at `pc`, or the fault. -/
theorem fetchInstr_eq (s : State) :
    fetchInstr s =
      if s.mem.size ≤ s.pc then .error (.outOfBounds s.pc)
      else if shapeOf (normalise s.inputs.template) = .other then
        .ok (instrOf s.config.endDirective s.inputs.template .other)
      else if s.mem.size ≤ s.pc + 1 then .error (.outOfBounds (s.pc + 1))
      else .ok (instrOf s.config.endDirective s.inputs.template
        (operandsOf (s.mem.peek s.pc) (s.mem.peek (s.pc + 1)) (shapeOf (normalise s.inputs.template)))) := by
  simp only [fetchInstr, readBytes_eq]
  split_ifs with h1 h2 h3
  · rfl
  · simp only [decode, h2, resolve_one]
  · rfl
  · simp only [decode, resolve_two h2]

/-- The normalised template and the record with which an instruction is delivered in a state. -/
def deliveredTemplate (cfg : Config) : Instr → Text
  | .fim T _ => T
  | .isz T _ _ => T
  | .jcn T _ _ => T
  | .jun T _ => T
  | .jms T _ => T
  | .other T => T
  | .endDirective _ => cfg.endDirective
  | .artefact stored => normalise stored

/-- Every instruction completes: it delivers the record of its operands for its normalised template. -/
theorem exec_eq (i : Instr) (s : State) :
    exec i s = .next (deliver
      (recordOf s.config.addr12Token (deliveredTemplate s.config i) i.operands) (deliveredTemplate s.config i) s) := by
  cases i <;> rfl

/-- The instruction of a template delivers the normalised template, whichever row it is. -/
theorem deliveredTemplate_instrOf (cfg : Config) (template : Text) (ops : Operands) :
    deliveredTemplate cfg (instrOf cfg.endDirective template ops) = normalise template := by
  unfold instrOf
  split_ifs with h1 h2
  · exact h1.symm
  · rfl
  · have h3 : normalise template = template := normalise_of_not_artefact (by simpa using h2)
    cases ops <;> exact h3.symm

/-- The operands of the instruction of a template are the ones given, for the shape of the template. -/
theorem operands_instrOf (endDirective template : Text) {ops : Operands}
    (h : ops.shape = shapeOf (normalise template)) : (instrOf endDirective template ops).operands = ops := by
  unfold instrOf
  split_ifs with h1 h2
  · rfl
  · rw [shapeOf_normalise_of_artefact h2] at h
    cases ops <;> first | rfl | cases h
  · cases ops <;> rfl

theorem inBounds_other {m : Memory} {pc : Nat} {t : Text} (h : shapeOf (normalise t) = .other) :
    inBounds m pc t ↔ pc < m.size := by
  simp only [inBounds, h, bytesRead, Nat.succ_le_iff]

theorem inBounds_two {m : Memory} {pc : Nat} {t : Text} (h : shapeOf (normalise t) ≠ .other) :
    inBounds m pc t ↔ pc + 1 < m.size := by
  unfold inBounds
  cases h' : shapeOf (normalise t) with
  | other => exact absurd h' h
  | _ => simp only [bytesRead]; omega

/-- The record that a RENDER call with this template delivers in a state. -/
def renderedRecord (s : State) (template : Text) : Decoded :=
  recordOf s.config.addr12Token (normalise template)
    (operandsOf (s.mem.peek s.pc) (s.mem.peek (s.pc + 1)) (shapeOf (normalise template)))

/-- Running the instruction of the inputs' template delivers the record of its operands. -/
theorem exec_instrOf (s : State) {ops : Operands} (h : ops.shape = shapeOf (normalise s.inputs.template)) :
    exec (instrOf s.config.endDirective s.inputs.template ops) s =
      .next (deliver (recordOf s.config.addr12Token (normalise s.inputs.template) ops)
        (normalise s.inputs.template) s) := by
  rw [exec_eq, deliveredTemplate_instrOf, operands_instrOf _ _ h]

/-- Everything a RENDER call can do: it delivers the record of its bytes, or faults at the first index that is not in the
memory. -/
theorem runRender_eq (s : State) :
    runRender s =
      if inBounds s.mem s.pc s.inputs.template then
        .next (deliver (renderedRecord s s.inputs.template) (normalise s.inputs.template) s)
      else if s.mem.size ≤ s.pc then .fault (.outOfBounds s.pc)
      else .fault (.outOfBounds (s.pc + 1)) := by
  simp only [runRender, fetchInstr_eq]
  by_cases ho : shapeOf (normalise s.inputs.template) = .other
  · have hb := inBounds_other (m := s.mem) (pc := s.pc) ho
    by_cases h1 : s.mem.size ≤ s.pc
    · rw [if_pos h1, if_neg (by rw [hb]; omega), if_pos h1]; rfl
    · rw [if_neg h1, if_pos ho, if_pos (by rw [hb]; omega)]
      simp only [exec_instrOf s (ops := .other) (by rw [ho]; rfl), renderedRecord, ho, operandsOf]
  · have hb := inBounds_two (m := s.mem) (pc := s.pc) ho
    by_cases h1 : s.mem.size ≤ s.pc
    · rw [if_pos h1, if_neg (by rw [hb]; omega), if_pos h1]; rfl
    · by_cases h2 : s.mem.size ≤ s.pc + 1
      · rw [if_neg h1, if_neg ho, if_pos h2, if_neg (by rw [hb]; omega), if_neg h1]; rfl
      · rw [if_neg h1, if_neg ho, if_neg h2, if_pos (by rw [hb]; omega)]
        simp only [exec_instrOf s (operandsOf_shape _ _ _), renderedRecord]

/-- A step performs the caller's next action on the state without it. -/
theorem takeAction_cons {s : State} {a : HostAction} {rest : List HostAction} (h : s.pending = a :: rest) :
    takeAction s = perform a (s.withPending rest) := by
  simp [takeAction, h]

theorem takeAction_idle {s : State} (h : s.pending = []) : takeAction s = .next s := by
  simp [takeAction, h]

end Sys2Proof.Machine
end

