-- ==== Sys2Proof/Laws/PerInstr.lean ====
section
/-! SUPPORT. Per-instruction families. -/

/-- The encoded bytes of an instruction are as many as its format has (30_encoding.md R56), whatever the bits that are not
examined. -/
def Sys2Proof.Laws.EncodedLength.Statement (i : Sys2Proof.Instr) : Prop :=
  ∀ fill : Sys2Proof.Byte,
    (Sys2Proof.encode fill i).length = Sys2Proof.Machine.bytesRead i.operands.shape

namespace Sys2Proof.Laws.EncodedLength

open Sys2Proof

theorem fim (template : Text) (data8 : Byte) : Statement (.fim template data8) := fun _ => rfl

theorem isz (template : Text) (reg : Nibble) (operand : Byte) : Statement (.isz template reg operand) := fun _ => rfl

theorem jcn (template : Text) (cond : Nibble) (address8 : Byte) : Statement (.jcn template cond address8) :=
  fun _ => rfl

theorem jun (template : Text) (address : Addr12) : Statement (.jun template address) := fun _ => rfl

theorem jms (template : Text) (address : Addr12) : Statement (.jms template address) := fun _ => rfl

theorem other (template : Text) : Statement (.other template) := fun _ => rfl

theorem endDirective (operands : Operands) : Statement (.endDirective operands) := by
  intro fill
  cases operands <;> rfl

theorem artefact (stored : Text) : Statement (.artefact stored) := fun _ => rfl

end Sys2Proof.Laws.EncodedLength
end

