-- ==== Sys2Proof/Tests/Slice0.lean ====
section
/-! SUPPORT. Tests of the model. Every expected value is the spec's: the source's worked examples S1 to S9 and the vectors
V1 to V52 of 95_test_vectors.md, or bits written out from the formats of 30_encoding.md R56. -/

namespace Sys2Proof.Tests

open Sys2Proof Sys2Proof.Machine

/-- What a caller sees of a step: result, rows, program counter. -/
def seen : Host.Outcome State Fault Refusal → Option (Result × List Row × Nat)
  | .next s => some (s.result, s.rows, s.pc)
  | .fault _ => none
  | .refused _ => none

def faultOf : Host.Outcome State Fault Refusal → Option Fault
  | .fault f => some f
  | _ => none

/-- The inputs of a RENDER call. -/
def inputsOf (template label : String) (mode : Mode) (width : Width) (quiet : Bool) : RenderInputs :=
  ⟨template.toList, label.toList, mode, width, quiet⟩

/-- A machine with these bytes in memory, the program counter at `pc`, and one RENDER call waiting. -/
def calling (bytes : List Byte) (pc : Nat) (inp : RenderInputs) : State :=
  { State.reset with mem := Memory.ofBytes bytes, pc := pc, pending := [.render inp] }

/-- The fixture table FT. -/
def tableFT : List OpcodeEntry :=
  [⟨0, "nop()".toList, .one⟩, ⟨32, "fim(0p,data8)".toList, .two⟩, ⟨34, "fim(1p,data8)".toList, .two⟩,
   ⟨115, "isz(3,address8)".toList, .two⟩, ⟨21, "jcn(address8)".toList, .two⟩, ⟨65, "jun(address12)".toList, .two⟩,
   ⟨79, "jun(address12)".toList, .two⟩, ⟨81, "jms(address12)".toList, .two⟩, ⟨240, "clb()".toList, .one⟩,
   ⟨163, "ld (3)".toList, .one⟩, ⟨255, "end".toList, .one⟩]

/-- The fixture table FT2. -/
def tableFT2 : List OpcodeEntry :=
  [⟨7, "aaa()".toList, .one⟩, ⟨7, "bbb()".toList, .one⟩, ⟨9, "aaa()".toList, .one⟩]

/-! ### Each instruction, by one step -/

/-- S2. -/
theorem test_fim_listing :
    seen (step (calling [0x20, 14] 0 (inputsOf "fim(0p,data8)" "32" .listing .two false))) =
      some (.decoded ⟨.fim, "fim(0,14)".toList, none, false, none, some 14, none⟩,
        [.listing 0 "32".toList "fim(0,14)".toList], 2) := by decide

/-- V37: every `p` removed, every `data8` replaced. -/
theorem test_fim_text :
    (fimRecord "fim(pp,data8,data8)".toList 9).text = "fim(,9,9)".toList := by decide

/-- S3: the source's byte, in trace mode. -/
theorem test_isz_trace :
    seen (step (calling [0b00100011, 7] 0 (inputsOf "isz(3,address8)" "35" .trace .two false))) =
      some (.decoded ⟨.isz, "isz(3,7)".toList, none, false, some 3, some 7, none⟩,
        [.trace "35".toList "isz(3,7)".toList], 0) := by decide

/-- V43: the byte wins over the template. -/
theorem test_isz_byte_wins :
    seen (step (calling [0x75, 0x07] 0 (inputsOf "isz(3,address8)" "" .listing .two true))) =
      some (.decoded ⟨.isz, "isz(5,7)".toList, none, false, some 5, some 7, none⟩, [], 2) := by decide

/-- S4, V44: the row shows the symbolic form, the numeric form is returned. -/
theorem test_jcn_listing :
    seen (step (calling [0x15, 0xC8] 0 (inputsOf "jcn(address8)" "21" .listing .two false))) =
      some (.decoded ⟨.jcn, "jcn(5,200)".toList, some "jcn(200)".toList, true, none, some 200, some 5⟩,
        [.listing 0 "21".toList "jcn(200)".toList], 2) := by decide

/-- V48: without the parenthesis it is an OTHER template. -/
theorem test_jcn_without_parenthesis :
    seen (step (calling [0x15, 0xC8] 0 (inputsOf "jcn" "" .trace .two false))) =
      some (.decoded ⟨.other, "jcn".toList, none, false, none, none, none⟩, [.trace [] "jcn".toList], 0) := by decide

/-- S5, V24: 291 and not the defective 35. -/
theorem test_jun_listing :
    seen (step (calling [0x41, 0x23] 0 (inputsOf "jun(address12)" "65" .listing .two false))) =
      some (.decoded ⟨.jun, "jun(291)".toList, some "jun(291)".toList, true, none, some 291, none⟩,
        [.listing 0 "65".toList "jun(291)".toList], 2) := by decide

/-- V31 in listing mode: a template without the placeholder is shown as it is. -/
theorem test_jun_without_token :
    seen (step (calling [0x41, 0x23] 0 (inputsOf "jun(addr)" "" .listing .two false))) =
      some (.decoded ⟨.jun, "jun(291)".toList, some "jun(addr)".toList, true, none, some 291, none⟩,
        [.listing 0 [] "jun(addr)".toList], 2) := by decide

/-- V29: the upper nibble does not matter; the largest address. -/
theorem test_jms_trace :
    seen (step (calling [0xFF, 0xFF] 0 (inputsOf "jms(address12)" "x" .trace .two false))) =
      some (.decoded ⟨.jms, "jms(4095)".toList, some "jms(4095)".toList, true, none, some 4095, none⟩,
        [.trace "x".toList "jms(4095)".toList], 0) := by decide

/-- S1, V49d: the row drops the parentheses, and the width moves the counter whatever the shape. -/
theorem test_other_listing :
    seen (step (calling [0xF0, 0x01] 0 (inputsOf "nop()" "240" .listing .two false))) =
      some (.decoded ⟨.other, "nop()".toList, none, false, none, none, none⟩,
        [.listing 0 "240".toList "nop".toList], 2) := by decide

/-- V49e: every `()` is removed from the row. -/
theorem test_strip_all : strip "a()b()".toList = "ab".toList := by decide

/-- S9: the label is cleared. -/
theorem test_end_listing :
    seen (step (calling [0xFF] 0 (inputsOf "end" "255" .listing .one false))) =
      some (.decoded ⟨.other, "end".toList, none, false, none, none, none⟩, [.listing 0 [] "end".toList], 1) := by decide

/-- V50b: with END_DIRECTIVE `jcn(address8)` the numeric form is shown and the record is not altered. -/
theorem test_end_with_jcn_text :
    seen (step { calling [0x15, 0xC8] 0 (inputsOf "jcn(address8)" "21" .listing .two false) with
        config := ⟨"jcn(address8)".toList, Config.defaultAddr12Token⟩ }) =
      some (.decoded ⟨.jcn, "jcn(5,200)".toList, some "jcn(200)".toList, true, none, some 200, some 5⟩,
        [.listing 0 [] "jcn(5,200)".toList], 2) := by decide

/-- V50: in trace mode the end directive keeps its label. -/
theorem test_end_trace :
    seen (step (calling [0xFF] 0 (inputsOf "end" "255" .trace .one false))) =
      some (.decoded ⟨.other, "end".toList, none, false, none, none, none⟩,
        [.trace "255".toList "end".toList], 0) := by decide

/-- V18. -/
theorem test_artefact_listing :
    seen (step (calling [0xA3] 0 (inputsOf "ld (3)" "163" .listing .one false))) =
      some (.decoded ⟨.other, "ld".toList, none, false, none, none, none⟩,
        [.listing 0 "163".toList "ld".toList], 1) := by decide

/-- V20, V22, V23: the shortest artefact, and texts that are none. -/
theorem test_normalise_edges :
    normalise "ab ".toList = "ab".toList ∧ normalise "ab".toList = "ab".toList ∧
      normalise "a b".toList = "a b".toList ∧ normalise "nop ()".toList = "nop ()".toList := by decide

/-! ### The fault -/

/-- V51, V51d, V51e. -/
theorem test_out_of_bounds :
    faultOf (step (calling [0x41] 0 (inputsOf "jun(address12)" "65" .listing .two false))) = some (.outOfBounds 1) ∧
    faultOf (step (calling [0x41, 0x23] 5 (inputsOf "jun(address12)" "65" .listing .two false))) =
      some (.outOfBounds 5) ∧
    faultOf (step (calling [] 0 (inputsOf "nop()" "0" .trace .one false))) = some (.outOfBounds 0) := by decide

/-- V51c: the last byte decodes under OTHER. -/
theorem test_last_byte :
    seen (step (calling [0x41] 0 (inputsOf "nop()" "0" .listing .one true))) =
      some (.decoded ⟨.other, "nop()".toList, none, false, none, none, none⟩, [], 1) := by decide

/-! ### The lookups -/

/-- V1, V2, V4, V5, V6, V7. -/
theorem test_find_by_name :
    findByName tableFT "nop".toList .short = .found ⟨0, "nop()".toList, .one⟩ ∧
    findByName tableFT "nop".toList .full = .notFound ∧
    findByName tableFT "nop()".toList .short = .notFound ∧
    findByName tableFT "jun".toList .short = .found ⟨65, "jun(address12)".toList, .two⟩ ∧
    findByName tableFT "ld ".toList .short = .found ⟨163, "ld (3)".toList, .one⟩ ∧
    findByName tableFT "NOP".toList .short = .notFound := by decide

/-- V9, V12, V13, V14: the two lookups break ties in opposite directions. -/
theorem test_ties :
    findByName tableFT2 "aaa".toList .short = .found ⟨7, "aaa()".toList, .one⟩ ∧
    findByOpcode tableFT2 7 = .found ⟨7, "bbb()".toList, .one⟩ ∧
    findByOpcode tableFT2 9 = .found ⟨9, "aaa()".toList, .one⟩ ∧
    findByOpcode tableFT2 8 = .notFound := by decide

/-- V16: the table, not the bit pattern, decides what is known. -/
theorem test_find_by_opcode_step :
    seen (step { State.reset with otab := tableFT, pending := [.findByOpcode 0x42] }) =
      some (.lookup .notFound, [], 0) := by decide

/-- V10. -/
theorem test_find_by_name_step :
    seen (step { State.reset with otab := tableFT, pc := 4, pending := [.findByName "fim".toList .short] }) =
      some (.lookup (.found ⟨32, "fim(0p,data8)".toList, .two⟩), [], 4) := by decide

/-! ### Decoding: words written out bit by bit from the formats of R56 -/

/-- W2-D8: byte 0 not examined, byte 1 the immediate. -/
theorem test_decode_fim :
    decode "end".toList "fim(0p,data8)".toList [0b00100000, 0b00001110] =
      .ok (.fim "fim(0p,data8)".toList 0b00001110, []) := by decide

/-- W2-R-D8: byte 0 bits 3:0 the register, byte 1 the operand. -/
theorem test_decode_isz :
    decode "end".toList "isz(3,address8)".toList [0b00100011, 0b00000111] =
      .ok (.isz "isz(3,address8)".toList 0b0011 0b00000111, []) := by decide

/-- W2-C-A8: byte 0 bits 3:0 the condition, byte 1 the address; a byte after it is left. -/
theorem test_decode_jcn :
    decode "end".toList "jcn(address8)".toList [0b00010101, 0b11001000, 0b00000001] =
      .ok (.jcn "jcn(address8)".toList 0b0101 0b11001000, [0b00000001]) := by decide

/-- W2-A12: byte 0 bits 3:0 are address bits 11:8. -/
theorem test_decode_jun :
    decode "end".toList "jun(address12)".toList [0b01000001, 0b00100011] =
      .ok (.jun "jun(address12)".toList 0b000100100011, []) := by decide

/-- W2-A12 under the other prefix. -/
theorem test_decode_jms :
    decode "end".toList "jms(address12)".toList [0b01010001, 0b00000000] =
      .ok (.jms "jms(address12)".toList 0b000100000000, []) := by decide

/-- W1: one byte, not examined. -/
theorem test_decode_other :
    decode "end".toList "clb()".toList [0b11110000, 0b00000001] = .ok (.other "clb()".toList, [0b00000001]) := by decide

theorem test_decode_end :
    decode "end".toList "end".toList [0b11111111] = .ok (.endDirective .other, []) := by decide

theorem test_decode_artefact :
    decode "end".toList "ld (3)".toList [0b10100011] = .ok (.artefact "ld (3)".toList, []) := by decide

/-- Bytes that are too few are rejected by name. -/
theorem test_decode_rejects :
    decode "end".toList "jun(address12)".toList [0x41] = .error (.missingByte 1) ∧
    decode "end".toList "nop()".toList [] = .error (.missingByte 0) := by decide

/-- Table words, the first byte in bits 7:0, with the opcodes of the fixtures (93_implementation_defined.md G6). -/
theorem test_table_words :
    decodeTableWord 16 0x0E20 = some (.fim "fim(0p,data8)".toList 14) ∧
    decodeTableWord 16 0x0773 = some (.isz "isz(3,address8)".toList 3 7) ∧
    decodeTableWord 16 0xC815 = some (.jcn "jcn(address8)".toList 5 200) ∧
    decodeTableWord 16 0x2341 = some (.jun "jun(address12)".toList 291) := by decide

theorem test_table_words_2 :
    decodeTableWord 16 0x0051 = some (.jms "jms(address12)".toList 256) ∧
    decodeTableWord 8 0x00 = some (.other "nop()".toList) ∧
    decodeTableWord 8 0xFF = some (.endDirective .other) ∧
    decodeTableWord 8 0xA3 = some (.artefact "ld (3)".toList) ∧
    decodeTableWord 8 0x99 = none := by decide

/-- The very next step runs the table word's instruction. -/
theorem test_fetch_word :
    seen (step (State.reset.withFetchWord 16 0x2341)) =
      some (.decoded ⟨.jun, "jun(291)".toList, some "jun(291)".toList, true, none, some 291, none⟩,
        [.listing 0 "65".toList "jun(291)".toList], 2) := by decide

/-! ### WellFormed refuses -/

theorem test_wf_wrong_prefix : ¬ (Instr.fim "jun(address12)".toList 0).wf Config.default := by decide
theorem test_wf_isz_prefix : ¬ (Instr.isz "is(".toList 0 0).wf Config.default := by decide
theorem test_wf_jcn_parenthesis : ¬ (Instr.jcn "jcn".toList 0 0).wf Config.default := by decide
theorem test_wf_jun_under_jms : ¬ (Instr.jun "jms(address12)".toList 0).wf Config.default := by decide
theorem test_wf_jms_under_jun : ¬ (Instr.jms "jun(address12)".toList 0).wf Config.default := by decide
theorem test_wf_other_artefact : ¬ (Instr.other "ld (3)".toList).wf Config.default := by decide
theorem test_wf_other_end : ¬ (Instr.other "end".toList).wf Config.default := by decide
theorem test_wf_end_operands : ¬ (Instr.endDirective (.jun 1)).wf Config.default := by decide
theorem test_wf_artefact_plain : ¬ (Instr.artefact "nop()".toList).wf Config.default := by decide
theorem test_wf_alphabet : ¬ (Instr.other ['a', '\n']).wf Config.default := by decide
theorem test_wf_accepts : (Instr.jun "jun(address12)".toList 291).wf Config.default := by decide
theorem test_wf_config : ¬ Config.wf ⟨"end".toList, []⟩ ∧ Config.default.wf := by decide
theorem test_wf_query : ¬ (HostAction.findByName ['é'] .short).wf := by decide
theorem test_wf_entry : ¬ OpcodeEntry.wf ⟨0, ['\t'], .one⟩ := by decide
theorem test_length_fits :
    ¬ OpcodeEntry.lengthFits ⟨65, "jun(address12)".toList, .one⟩ ∧ ∀ e ∈ tableFT, e.lengthFits := by decide
theorem test_grammar :
    (∀ e ∈ tableFT, followsGrammar Config.default e.mnemonic = true) ∧
      followsGrammar Config.default "fim(p,".toList = false := by decide

/-! ### The walker, one round: an instruction cut off (as P3, call 2) and an unknown opcode (as P5, call 3) -/

theorem test_walk_cut_off :
    (walk 1 { State.reset with otab := tableFT, mem := Memory.ofBytes [0x41] }).2 = .fault (.outOfBounds 1) := by decide

theorem test_walk_unknown :
    (walk 1 { State.reset with otab := tableFT, mem := Memory.ofBytes [0x99] }).2 = .unknownMnemonic := by decide

theorem test_dec : dec 0 = "0".toList ∧ dec 4095 = "4095".toList ∧ dec 200 = "200".toList := by decide

/-! ### Witnesses: for every statement with hypotheses, states and operands that meet them together -/

/-- The inputs of the witnesses: listing, two slots, not quiet. -/
def inpOf (template : Text) : RenderInputs := ⟨template, ['6'], .listing, .two, false⟩

/-- The bytes 0x41 0x23, the program counter at `pc`, one RENDER call with this template. -/
def wit (template : Text) (pc : Nat) : State := calling [0x41, 0x23] pc (inpOf template)

def tFim : Text := ['f', 'i', 'm', '(', '0', 'p', ',', 'd', 'a', 't', 'a', '8', ')']
def tIsz : Text := ['i', 's', 'z', '(', '3', ')']
def tJcn : Text := ['j', 'c', 'n', '(', 'a', 'd', 'd', 'r', 'e', 's', 's', '8', ')']
def tJun : Text := ['j', 'u', 'n', '(', 'a', 'd', 'd', 'r', 'e', 's', 's', '1', '2', ')']
def tJms : Text := ['j', 'm', 's', '(', 'a', 'd', 'd', 'r', 'e', 's', 's', '1', '2', ')']
def tNop : Text := ['n', 'o', 'p', '(', ')']
def tArt : Text := ['l', 'd', ' ', '(', '3', ')']

/-- NothingHappensWithoutACall. -/
theorem witness_no_call : State.reset.pending = [] := rfl

/-- StepRunsTheDecodedInstruction. -/
theorem witness_step_decoded :
    (wit tJun 0).pending = [.render (inpOf tJun)] ∧
    readBytes (wit tJun 0).mem (wit tJun 0).pc (shapeOf (normalise tJun)) = .ok [0x41, 0x23] ∧
    decode (wit tJun 0).config.endDirective tJun [0x41, 0x23] = .ok (.jun tJun 0x123, []) := by decide

/-- InBoundsRenderRunsAWellFormedInstruction, and the mode and width clauses of the statements about a RENDER call. -/
theorem witness_in_bounds :
    (wit tJun 0).config.wf ∧ (inpOf tJun).wf ∧ inBounds (wit tJun 0).mem 0 tJun ∧ inBounds (wit tNop 1).mem 1 tNop ∧
      ¬ inBounds (wit tJun 1).mem 1 tJun := by decide

/-- DecodeOfEncodeIsTheInstruction: every constructor. -/
theorem witness_well_formed :
    (Instr.fim tFim 255).wf Config.default ∧ (Instr.isz tIsz 15 0).wf Config.default ∧
    (Instr.jcn tJcn 0 255).wf Config.default ∧ (Instr.jun tJun 4095).wf Config.default ∧
    (Instr.jms tJms 0).wf Config.default ∧ (Instr.other tNop).wf Config.default ∧
    (Instr.endDirective .other).wf Config.default ∧ (Instr.artefact tArt).wf Config.default ∧
    (Instr.endDirective (.jun 7)).wf ⟨tJun, ['x']⟩ := by decide

/-- EncodedInstructionRunsFromMemory: the bytes of `jun` 0x123 with the high nibble 4 stand at 0. -/
theorem witness_encoded :
    encode 0x40 (.jun tJun 0x123) = [0x41, 0x23] ∧ memRead (wit tJun 0).mem 0 = .ok 0x41 ∧
    memRead (wit tJun 0).mem 1 = .ok 0x23 ∧ tJun = encodeTemplate (wit tJun 0).config.endDirective (.jun tJun 0x123) := by
  decide

/-- FetchWordIsTheNextInstruction. -/
theorem witness_fetch_word :
    State.reset.mem.wf ∧ State.reset.config.endDirective = Config.defaultEndDirective ∧
      decodeTableWord 8 0 = some (.other tNop) := by decide

/-- StepKeepsStatesGood: a good state with a call and a table. -/
theorem witness_good :
    ∃ s t : State, s.Good ∧ s.pending = [.render (inpOf tJun)] ∧ s.otab = tableFT ∧ step s = .next t :=
  ⟨{ wit tJun 0 with otab := tableFT }, _,
    ⟨by decide, by decide, by decide, by decide, by decide, trivial, by decide⟩, rfl, rfl, rfl⟩

/-- RenderCallIsTheAssembledPseudocode, both clauses; OnlyAListingRenderAdvancesThePc, QuietOnlySilences,
ListingModeShowsOneRowAndAdvances, TraceModeShowsOneRowAndStays, AtMostOneRowACall: calls of either mode, width and
`quiet` that complete. -/
theorem witness_render_completes :
    (∃ t, step (wit tJun 0) = .next t) ∧
    (∃ t, step (calling [1] 0 { inpOf tNop with mode := .trace, quiet := true }) = .next t) ∧
    (∃ t, step (calling [1] 0 { inpOf tNop with wordWidth := .one, quiet := true }) = .next t) ∧
    isCall (.render (inpOf tJun)) = true ∧ isCall (.findByOpcode 0) = true :=
  ⟨⟨_, rfl⟩, ⟨_, rfl⟩, ⟨_, rfl⟩, rfl, rfl⟩

/-- DeliveredFieldsFitTheShape, InstructionsChangeOnlyTheirOutputs: in either mode. -/
theorem witness_exec_completes :
    (∃ t, exec (.isz tIsz 3 7) State.reset = .next t) ∧
    (∃ t, exec (.jms tJms 3) { State.reset with inputs := { inpOf tJms with mode := .trace } } = .next t) :=
  ⟨⟨_, rfl⟩, ⟨_, rfl⟩⟩

/-- OutOfBoundsIsRaisedExactlyAt, OnlyRenderCallsStop, FaultIsNotRemembered, CallsRememberNothing: `pc` at the capacity,
`pc` at the last slot, no memory at all; and a memory on which the same call is in bounds. -/
theorem witness_faults :
    step (wit tNop 2) = .fault (.outOfBounds 2) ∧ step (wit tJun 1) = .fault (.outOfBounds 2) ∧
    step (calling [] 0 (inpOf tNop)) = .fault (.outOfBounds 0) ∧
    inBounds (Memory.ofBytes [0, 0, 0]) 1 tJun :=
  ⟨rfl, rfl, rfl, by decide⟩

/-- ArtefactCompletes, and its second hypothesis in ArtefactIsCompactedByAStep. -/
theorem witness_artefact :
    tArt[2]? = some ' ' ∧ tArt = 'l' :: 'd' :: ' ' :: ['(', '3', ')'] ∧ (wit tArt 1).pc < (wit tArt 1).mem.size := by
  decide

/-- The two clauses of CompletesWith. -/
theorem witness_modes :
    State.reset.inputs.mode = .listing ∧
    ({ State.reset with inputs := { inpOf tJun with mode := .trace } } : State).inputs.mode = .trace := by decide

/-- FimFillsItsTemplate and its four siblings: the prefix. -/
theorem witness_prefixes :
    normalise tFim = ['f', 'i', 'm'] ++ tFim.drop 3 ∧ normalise tIsz = ['i', 's', 'z'] ++ tIsz.drop 3 ∧
    normalise tJcn = ['j', 'c', 'n', '('] ++ tJcn.drop 4 ∧ normalise tJun = ['j', 'u', 'n', '('] ++ tJun.drop 4 ∧
    normalise tJms = ['j', 'm', 's', '('] ++ tJms.drop 4 := by decide

/-- Their three clauses, for any of the templates: `pc` at the capacity, at the last slot, and both bytes there. -/
theorem witness_shape_clauses (t : Text) :
    (wit t 2).mem.size ≤ (wit t 2).pc ∧ (wit t 1).pc + 1 = (wit t 1).mem.size ∧
    memRead (wit t 0).mem (wit t 0).pc = .ok 0x41 ∧ memRead (wit t 0).mem ((wit t 0).pc + 1) = .ok 0x23 ∧
    (wit t 0).pending = [.render (inpOf t)] :=
  ⟨Nat.le_refl 2, rfl, rfl, rfl, rfl⟩

/-- OtherIsReturnedVerbatim: no prefix, and each of its three clauses. -/
theorem witness_other :
    (∀ p ∈ [['f', 'i', 'm'], ['i', 's', 'z'], ['j', 'c', 'n', '('], ['j', 'u', 'n', '('], ['j', 'm', 's', '(']],
      ¬ p <+: normalise tNop) ∧ (wit tNop 2).mem.size ≤ 2 ∧ 1 < (wit tNop 1).mem.size ∧ tNop[2]? ≠ some ' ' := by decide

/-- ListingModeShowsOneRowAndAdvances: the end directive and another template. -/
theorem witness_listing_clauses :
    normalise ['e', 'n', 'd'] = (wit ['e', 'n', 'd'] 0).config.endDirective ∧
    normalise tJcn ≠ (wit tJcn 0).config.endDirective ∧ (inpOf tJcn).mode = .listing ∧
    inBounds (wit tJcn 0).mem (wit tJcn 0).pc tJcn ∧
    inBounds (wit ['e', 'n', 'd'] 0).mem (wit ['e', 'n', 'd'] 0).pc ['e', 'n', 'd'] := by decide

/-- RecordDependsOnMemoryPcAndTemplate, CallsRememberNothing: two states that differ in all the rest. -/
theorem witness_two_states :
    ∃ s s' : State, s.pending = [.render (inpOf tJun)] ∧ s'.pending = [.render { inpOf tJun with mode := .trace }] ∧
      s'.mem = s.mem ∧ s'.pc = s.pc ∧ s'.config.addr12Token = s.config.addr12Token ∧ s'.rows ≠ s.rows ∧
      s'.result ≠ s.result :=
  ⟨wit tJun 0, { wit tJun 0 with
    pending := [.render { inpOf tJun with mode := .trace }]
    rows    := [.trace [] []]
    result  := .lookup .notFound }, rfl, rfl, rfl, rfl, rfl, by decide, by decide⟩

/-- UnexaminedBitsReachNoOutput: another upper nibble and a changed byte after the instruction. -/
theorem witness_unexamined :
    (Memory.ofBytes [0xF1, 0x23, 9]).size = (calling [0x41, 0x23, 0] 0 (inpOf tJun)).mem.size ∧
    lowNibble ((Memory.ofBytes [0xF1, 0x23, 9]).peek 0) = lowNibble ((Memory.ofBytes [0x41, 0x23, 0]).peek 0) ∧
    (Memory.ofBytes [0xF1, 0x23, 9]).peek 1 = (Memory.ofBytes [0x41, 0x23, 0]).peek 1 := by decide

/-- CallsWriteNoMemoryAndNoTable, TableAndParametersNeverChange: a lookup that completes; FindByNameReturnsTheFirstMatch and
FindByOpcodeReturnsTheLastMatch. -/
theorem witness_lookups :
    (∃ t, step { State.reset with otab := tableFT2, pending := [.findByName ['a', 'a', 'a'] .short] } = .next t) ∧
    (∃ t, step { State.reset with otab := tableFT2, pending := [.findByOpcode 7] } = .next t) ∧
    isCall (.findByName [] .full) = true :=
  ⟨⟨_, rfl⟩, ⟨_, rfl⟩, rfl⟩

/-- ShortQueriesMatchByLength: lengths four, two and nought. -/
theorem witness_short_queries :
    3 < tNop.length ∧ findByName [⟨1, ['l', 'd'], .one⟩] ['l', 'd'] .short = .found ⟨1, ['l', 'd'], .one⟩ ∧
    findByName [⟨1, [], .one⟩] [] .full = .found ⟨1, [], .one⟩ := by decide

/-- ReplaceAllIsLeftmostAndNotRescanned and StripRemovesEveryPair: a first occurrence at position 1, and none. -/
theorem witness_occurrences :
    (∀ k, k < (['a'] : Text).length → ¬ parens <+: ((['a'] : Text) ++ parens ++ ['b', '(', ')']).drop k) ∧
    ¬ parens <:+: (['(', 'a', ')'] : Text) ∧ ¬ parens <:+: ((['a'] : Text) ++ ['(']) := by decide

/-- NormaliseCompactsTheArtefact: length three with the space, length two, and a prefix. -/
theorem witness_normalise :
    (['a', 'b', ' '] : Text)[2]? = some ' ' ∧ ¬ (3 ≤ (['a', 'b'] : Text).length) ∧ shapeOf tJun ≠ .other := by decide

/-- DecIsTheShortestNumeral, FieldIsTheLowNibble, MemReadChecksTheBound: a number, two bytes that differ, both sides of the
capacity. -/
theorem witness_primitives :
    (10 : Nat) ≠ 0 ∧ (0xF1 : Byte).toNat % 16 = (0x41 : Byte).toNat % 16 ∧ 1 < (Memory.ofBytes [1, 2]).size ∧
      (Memory.ofBytes [1, 2]).size ≤ 2 := by decide

/-- SuppliedMemoryHoldsItsBytes, CallerMayMoveThePc. -/
theorem witness_caller_moves :
    (∃ t, step { State.reset with pending := [.supplyMemory [1, 0, 3]] } = .next t) ∧
    (∃ t, step { State.reset with pending := [.movePc 9] } = .next t) ∧ ([1, 0, 3] : List Byte)[2]? = some 3 :=
  ⟨⟨_, rfl⟩, ⟨_, rfl⟩, rfl⟩

/-- WalkEndsAtMemoryEndUnknownOpcodeOrFault: each of the three ends. -/
theorem witness_walk :
    (walk 2 { State.reset with otab := [⟨1, tNop, .one⟩], mem := Memory.ofBytes [1] }).2 = .endOfMemory ∧
    (walk 2 { State.reset with otab := [⟨1, tNop, .one⟩], mem := Memory.ofBytes [2] }).2 = .unknownMnemonic ∧
    (walk 2 { State.reset with otab := [⟨1, tJun, .one⟩], mem := Memory.ofBytes [1] }).2 = .fault (.outOfBounds 1) := by
  decide

end Sys2Proof.Tests
end

/-! The invariant `State.Good` and the step: each update of one field keeps it, hence step 3 of RENDER and every action
of the caller keep it. -/

namespace Sys2Proof.Machine

/-! ### Replacing one field of a good state -/

theorem State.Good.withPending {s : State} (h : s.Good) {pending : List HostAction} (hp : ∀ a ∈ pending, a.wf) :
    (s.withPending pending).Good :=
  { h with pending := hp }

theorem State.Good.withInputs {s : State} (h : s.Good) {inp : RenderInputs} (hi : inp.wf) :
    (s.withInputs inp).Good :=
  { h with inputs := hi }

theorem State.Good.withResult {s : State} (h : s.Good) {r : Result} (hr : r.wf s.otab) : (s.withResult r).Good :=
  { h with result := hr }

theorem State.Good.withPc {s : State} (h : s.Good) (pc : Nat) : (s.withPc pc).Good :=
  { h with }

theorem State.Good.withMem {s : State} (h : s.Good) {m : Memory} (hm : m.wf) : (s.withMem m).Good :=
  { h with mem := hm }

theorem State.Good.addRows {s : State} (h : s.Good) {rows : List Row} (hr : ∀ r ∈ rows, r.wf) :
    (s.addRows rows).Good :=
  { h with rows := fun r hmem => (List.mem_append.mp hmem).elim (h.rows r) (hr r) }

/-! ### The records of the shapes -/

/-- An 8-bit operand stays in the range of 8 bits as a 12-bit value (30_encoding.md R64). -/
theorem zext12_toNat_le (b : Byte) : (zext12 b).toNat ≤ 255 := by
  have hb : b.toNat < 256 := b.isLt
  simp only [zext12, BitVec.toNat_setWidth]
  omega

/-- Every record has exactly the fields of its shape (10_state.md R31). -/
theorem recordOf_fieldsFit (token T : Text) (ops : Operands) : (recordOf token T ops).fieldsFit = true := by
  cases ops with
  | fim data8 => simpa [recordOf, fimRecord, Decoded.fieldsFit, customFlag] using zext12_toNat_le data8
  | isz reg operand => simpa [recordOf, iszRecord, Decoded.fieldsFit, customFlag] using zext12_toNat_le operand
  | jcn cond address8 => simpa [recordOf, jcnRecord, Decoded.fieldsFit, customFlag] using zext12_toNat_le address8
  | jun address => rfl
  | jms address => rfl
  | other => rfl

/-- The numeric form is made of the template, fixed texts and numerals. -/
theorem printable_recordOf_text {T : Text} (hT : printable T = true) (token : Text) (ops : Operands) :
    printable (recordOf token T ops).text = true := by
  cases ops with
  | fim data8 =>
    simp only [recordOf, fimRecord, removeAll]
    exact printable_replaceAll (printable_replaceAll hT (printable_dec _)) printable_nil
  | isz reg operand => simp [recordOf, iszRecord, iszPrefix, isPrintable, printable_dec]
  | jcn cond address8 => simp [recordOf, jcnRecord, jcnPrefix, isPrintable, printable_dec]
  | jun address => simp [recordOf, junRecord, junPrefix, isPrintable, printable_dec]
  | jms address => simp [recordOf, jmsRecord, jmsPrefix, isPrintable, printable_dec]
  | other => exact hT

/-- The symbolic form, where there is one, is the template with a numeral for its placeholder
(41_render_shapes.md R92 to R94). -/
theorem printable_recordOf_symbolic {T : Text} (hT : printable T = true) (token : Text) (ops : Operands) :
    ∀ t ∈ (recordOf token T ops).symbolic, printable t = true := by
  have hfilled (pattern : Text) (n : Nat) : printable (replaceAll T pattern (dec n)) = true :=
    printable_replaceAll hT (printable_dec n)
  intro t ht
  cases ops with
  | jcn cond address8 => exact Option.mem_some.mp ht ▸ hfilled _ _
  | jun address => exact Option.mem_some.mp ht ▸ hfilled _ _
  | jms address => exact Option.mem_some.mp ht ▸ hfilled _ _
  | fim data8 => cases ht
  | isz reg operand => cases ht
  | other => cases ht

theorem recordOf_wf {T : Text} (hT : printable T = true) (token : Text) (ops : Operands) :
    (recordOf token T ops).wf :=
  ⟨printable_recordOf_text hT token ops, printable_recordOf_symbolic hT token ops, recordOf_fieldsFit token T ops⟩

/-! ### Step 3 of RENDER -/

/-- A listing shows one of the two forms of the record (42_render_modes.md R101). -/
theorem printable_listingForm {d : Decoded} (hd : d.wf) (cfg : Config) (T : Text) :
    printable (listingForm cfg T d) = true := by
  obtain ⟨htext, hsymbolic, -⟩ := hd
  unfold listingForm
  split
  · cases hs : d.symbolic with
    | none => exact htext
    | some form => exact hsymbolic form hs
  · exact htext

theorem printable_listingLabel {label : Text} (h : printable label = true) (cfg : Config) (T : Text) :
    printable (listingLabel cfg T label) = true := by
  unfold listingLabel
  split
  · exact printable_nil
  · exact h

theorem emit_wf {row : Row} (h : row.wf) (quiet : Bool) : ∀ r ∈ emit quiet row, r.wf := by
  unfold emit
  split
  · exact List.forall_mem_singleton.mpr h
  · exact List.forall_mem_nil _

/-- Delivering a well-formed record keeps a state good, in either mode. -/
theorem State.Good.deliver {s : State} (h : s.Good) {d : Decoded} (hd : d.wf) (T : Text) :
    (deliver d T s).Good := by
  have hlabel : printable s.inputs.label = true := h.inputs.2
  have hlisting : Row.wf (.listing s.pc (listingLabel s.config T s.inputs.label) (strip (listingForm s.config T d))) :=
    Bool.and_eq_true_iff.mpr
      ⟨printable_listingLabel hlabel _ _, printable_strip (printable_listingForm hd _ _)⟩
  have htrace : Row.wf (.trace s.inputs.label (strip d.text)) :=
    Bool.and_eq_true_iff.mpr ⟨hlabel, printable_strip hd.1⟩
  unfold Machine.deliver
  split
  · exact ((h.addRows (emit_wf hlisting _)).withPc _).withResult hd
  · exact (h.addRows (emit_wf htrace _)).withResult hd

/-! ### The lookups -/

theorem findByName_fromTable (query : Text) (strictness : Strictness) :
    ∀ table : List OpcodeEntry, fromTable table (findByName table query strictness)
  | [] => trivial
  | e :: es => by
    have ih := findByName_fromTable query strictness es
    unfold findByName
    split
    · exact List.mem_cons_self
    · cases hr : findByName es query strictness with
      | notFound => trivial
      | found x => exact List.mem_cons_of_mem e (by simpa [hr, fromTable] using ih)

/-- The scan answers an entry it passes or the result it began with. -/
theorem opcodeScan_fromTable (code : Byte) {table : List OpcodeEntry} :
    ∀ {es : List OpcodeEntry} {result : LookupResult}, fromTable table result → es ⊆ table →
      fromTable table (opcodeScan code result es)
  | [], _, hr, _ => hr
  | e :: es, result, hr, hes => by
    obtain ⟨he, hes⟩ := List.cons_subset.mp hes
    unfold opcodeScan
    refine opcodeScan_fromTable code ?_ hes
    split
    · exact he
    · exact hr

theorem findByOpcode_fromTable (table : List OpcodeEntry) (code : Byte) :
    fromTable table (findByOpcode table code) :=
  opcodeScan_fromTable code trivial (List.Subset.refl table)

/-! ### One step -/

/-- A RENDER call that completes has delivered the record of its bytes. -/
theorem runRender_eq_next {s t : State} (h : runRender s = .next t) :
    t = deliver (renderedRecord s s.inputs.template) (normalise s.inputs.template) s := by
  rw [runRender_eq] at h
  split_ifs at h
  cases h
  rfl

theorem State.Good.runRender {s t : State} (h : s.Good) (ht : runRender s = .next t) : t.Good := by
  rw [runRender_eq_next ht]
  exact h.deliver (recordOf_wf (printable_normalise h.inputs.1) _ _) _

/-- Every action of the caller that completes keeps a state good. -/
theorem State.Good.perform {s t : State} (h : s.Good) {a : HostAction} (ha : a.wf) (ht : perform a s = .next t) :
    t.Good := by
  cases a with
  | findByName query strictness =>
    cases ht
    exact h.withResult (findByName_fromTable query strictness s.otab)
  | findByOpcode code =>
    cases ht
    exact h.withResult (findByOpcode_fromTable s.otab code)
  | render inp => exact (h.withInputs (Bool.and_eq_true_iff.mp ha)).runRender ht
  | movePc pc =>
    cases ht
    exact h.withPc pc
  | supplyMemory bytes =>
    cases ht
    exact h.withMem (Memory.ofBytes_wf bytes)

/-- Settles O9, by the caller's next action: none leaves the state, and each of them keeps it good. -/
theorem stepKeepsStatesGood : Obligations.StepKeepsStatesGood := by
  intro s t h ht
  cases hp : s.pending with
  | nil =>
    cases (takeAction_idle hp).symm.trans ht
    exact h
  | cons a rest =>
    have hwaiting : ∀ b ∈ a :: rest, b.wf := hp ▸ h.pending
    obtain ⟨ha, hrest⟩ := List.forall_mem_cons.mp hwaiting
    exact (h.withPending hrest).perform ha ((takeAction_cons hp).symm.trans ht)

end Sys2Proof.Machine

/-! `dec` by its recursion on the last digit, and what that gives: digits, value, no leading zero. -/

namespace Sys2Proof.Machine

/-- With fuel enough, the digits written stand in front of what was there: the fuel does not matter. -/
theorem decDigits_eq_dec_append (n : Nat) :
    ∀ {fuel : Nat} (acc : Text), n < fuel → decDigits fuel n acc = dec n ++ acc := by
  induction n using Nat.strong_induction_on with
  | _ n ih =>
    intro fuel acc hfuel
    cases fuel with
    | zero => exact absurd hfuel (Nat.not_lt_zero n)
    | succ fuel =>
      by_cases hn : n < 10
      · simp [dec, decDigits, hn]
      · have hdiv : n / 10 < n := by omega
        simp [dec, decDigits, hn, ih _ hdiv _ hdiv, ih _ hdiv _ (show n / 10 < fuel by omega)]

theorem dec_of_lt {n : Nat} (h : n < 10) : dec n = [digit n] := by
  simp [dec, decDigits, h]

theorem dec_of_ge {n : Nat} (h : 10 ≤ n) : dec n = dec (n / 10) ++ [digit (n % 10)] := by
  rw [← decDigits_eq_dec_append (n / 10) [digit (n % 10)] (show n / 10 < n by omega)]
  simp [dec, decDigits, Nat.not_lt.mpr h]

/-- Induction along the recursion of `dec`: one digit, or one more digit at the end. -/
theorem dec_induction {P : Nat → Prop} (single : ∀ n, n < 10 → P n) (last : ∀ n, 10 ≤ n → P (n / 10) → P n)
    (n : Nat) : P n := by
  induction n using Nat.strong_induction_on with
  | _ n ih =>
    rcases Nat.lt_or_ge n 10 with h | h
    · exact single n h
    · exact last n h (ih _ (by omega))

/-- The ten digits are `0` to `9`, in order. -/
theorem digit_spec (d : Nat) :
    '0' ≤ digit d ∧ digit d ≤ '9' ∧ (digit d).toNat - '0'.toNat = d % 10 := by
  have h : ∀ k : Fin 10, '0' ≤ Char.ofNat (48 + k.val) ∧ Char.ofNat (48 + k.val) ≤ '9' ∧
      (Char.ofNat (48 + k.val)).toNat - '0'.toNat = k.val := by decide
  exact h ⟨d % 10, Nat.mod_lt _ (by decide)⟩

/-- A digit that is written `0` is the digit nought. -/
theorem digit_ne_zero {d : Nat} (h : d % 10 ≠ 0) : digit d ≠ '0' := by
  intro h0
  obtain ⟨-, -, hvalue⟩ := digit_spec d
  rw [h0] at hvalue
  exact h (by simpa using hvalue.symm)

theorem dec_ne_nil (n : Nat) : dec n ≠ [] := by
  rcases Nat.lt_or_ge n 10 with h | h
  · simp [dec_of_lt h]
  · simp [dec_of_ge h]

theorem dec_digits (n : Nat) : ∀ c ∈ dec n, '0' ≤ c ∧ c ≤ '9' := by
  have hdigit (d : Nat) : '0' ≤ digit d ∧ digit d ≤ '9' := ⟨(digit_spec d).1, (digit_spec d).2.1⟩
  induction n using dec_induction with
  | single n h =>
    rw [dec_of_lt h]
    exact List.forall_mem_singleton.mpr (hdigit n)
  | last n h ih =>
    rw [dec_of_ge h]
    exact List.forall_mem_append.mpr ⟨ih, List.forall_mem_singleton.mpr (hdigit _)⟩

theorem dec_value (n : Nat) : (dec n).foldl (fun v c => v * 10 + (c.toNat - '0'.toNat)) 0 = n := by
  have hdigit (d : Nat) := (digit_spec d).2.2
  induction n using dec_induction with
  | single n h =>
    simp only [dec_of_lt h, List.foldl_cons, List.foldl_nil, hdigit]
    omega
  | last n h ih =>
    simp only [dec_of_ge h, List.foldl_append, ih, List.foldl_cons, List.foldl_nil, hdigit]
    omega

theorem dec_head_ne_zero (n : Nat) : n ≠ 0 → (dec n).head? ≠ some '0' := by
  induction n using dec_induction with
  | single n h =>
    intro hn
    simpa [dec_of_lt h] using digit_ne_zero (d := n) (by omega)
  | last n h ih =>
    intro _
    rw [dec_of_ge h, List.head?_append_of_ne_nil _ (dec_ne_nil _)]
    exact ih (by omega)

/-- Settles O47, each part by induction along the digits of the numeral. -/
theorem decIsTheShortestNumeral : Obligations.DecIsTheShortestNumeral :=
  fun n => ⟨dec_digits n, dec_value n, dec_ne_nil n, dec_head_ne_zero n, dec_of_lt (by decide)⟩

end Sys2Proof.Machine

/-! The scan of `replace_all` by the text it stands before: an occurrence of the pattern, or a character to keep. -/

namespace Sys2Proof.Machine

theorem startsWith_iff_prefix (t p : Text) : startsWith t p = true ↔ p <+: t := by
  rw [startsWith_iff]
  exact exists_congr fun _ => eq_comm

/-- The characters still to be passed over are dropped. -/
theorem replaceScan_skip (a b : Text) : ∀ (skip : Nat) (t : Text),
    replaceScan a b skip t = replaceScan a b 0 (t.drop skip)
  | 0, _ => rfl
  | _ + 1, [] => rfl
  | skip + 1, _ :: cs => replaceScan_skip a b skip cs

theorem replaceScan_cons_of_not_prefix {a : Text} {c : Char} {cs : Text} (b : Text) (h : ¬ a <+: c :: cs) :
    replaceScan a b 0 (c :: cs) = c :: replaceScan a b 0 cs := by
  rw [replaceScan, if_neg (mt (startsWith_iff_prefix _ _).mp h)]

/-- At an occurrence the text is inserted and the scan goes on after what was replaced. -/
theorem replaceScan_occurrence {a : Text} (ha : a ≠ []) (b after : Text) :
    replaceScan a b 0 (a ++ after) = b ++ replaceScan a b 0 after := by
  cases a with
  | nil => exact absurd rfl ha
  | cons x xs =>
    have hocc : startsWith (x :: (xs ++ after)) (x :: xs) = true :=
      (startsWith_iff_prefix _ _).mpr (List.prefix_append (x :: xs) after)
    rw [List.cons_append, replaceScan, if_pos hocc, replaceScan_skip]
    simp

/-- Characters at which no occurrence begins are kept. -/
theorem replaceScan_append_of_no_occurrence {a : Text} (b rest : Text) : ∀ {before : Text},
    (∀ k, k < before.length → ¬ a <+: (before ++ rest).drop k) →
      replaceScan a b 0 (before ++ rest) = before ++ replaceScan a b 0 rest
  | [], _ => rfl
  | c :: cs, h => by
    have hhere : ¬ a <+: c :: (cs ++ rest) := h 0 (Nat.succ_pos _)
    have hlater : ∀ k, k < cs.length → ¬ a <+: (cs ++ rest).drop k :=
      fun k hk => h (k + 1) (Nat.succ_lt_succ hk)
    rw [List.cons_append, replaceScan_cons_of_not_prefix b hhere, replaceScan_append_of_no_occurrence b rest hlater,
      List.cons_append]

theorem replaceAll_eq_scan {a : Text} (ha : a ≠ []) (t b : Text) : replaceAll t a b = replaceScan a b 0 t :=
  if_neg ha

/-- The first occurrence is replaced, and what follows it is treated as a text of its own (00_scope.md R10). -/
theorem replaceAll_first_occurrence {a : Text} (ha : a ≠ []) (b : Text) {before after : Text}
    (h : ∀ k, k < before.length → ¬ a <+: (before ++ a ++ after).drop k) :
    replaceAll (before ++ a ++ after) a b = before ++ b ++ replaceAll after a b := by
  simp only [replaceAll_eq_scan ha, List.append_assoc] at h ⊢
  rw [replaceScan_append_of_no_occurrence b _ h, replaceScan_occurrence ha]

theorem replaceAll_of_no_occurrence {a : Text} (ha : a ≠ []) (b : Text) {t : Text} (h : ¬ a <:+: t) :
    replaceAll t a b = t := by
  have hnone : ∀ k, k < t.length → ¬ a <+: (t ++ []).drop k := by
    intro k _ hk
    rw [List.append_nil] at hk
    exact h (hk.isInfix.trans (List.drop_suffix k t).isInfix)
  simpa [replaceAll_eq_scan ha, replaceScan] using replaceScan_append_of_no_occurrence b [] hnone

/-- Settles O48, by the text before the first occurrence. -/
theorem replaceAllIsLeftmostAndNotRescanned : Obligations.ReplaceAllIsLeftmostAndNotRescanned :=
  fun _ b ha => ⟨fun _ _ h => replaceAll_first_occurrence ha b h, fun _ h => replaceAll_of_no_occurrence ha b h⟩

end Sys2Proof.Machine

/-! What one call leaves, written out as one state: the lookups, a RENDER call that completes, and the fault of one that
does not. The statements about calls follow from these equations. -/

namespace Sys2Proof.Machine

/-! ### A RENDER call as one equation -/

/-- The program counter after a RENDER call that completes: only listing mode moves it (42_render_modes.md R107). -/
def pcAfterRender (inp : RenderInputs) (pc : Nat) : Nat :=
  match inp.mode with
  | .listing => pc + slots inp.wordWidth
  | .trace => pc

theorem pcAfterRender_listing {inp : RenderInputs} (h : inp.mode = .listing) (pc : Nat) :
    pcAfterRender inp pc = pc + slots inp.wordWidth := by
  simp [pcAfterRender, h]

theorem pcAfterRender_of_not_listing {inp : RenderInputs} (h : inp.mode ≠ .listing) (pc : Nat) :
    pcAfterRender inp pc = pc := by
  cases hm : inp.mode with
  | listing => exact absurd hm h
  | trace => simp [pcAfterRender, hm]

/-- The row of a RENDER call that displays (42_render_modes.md R102, R105). -/
def renderedRow (cfg : Config) (d : Decoded) (T : Text) (inp : RenderInputs) (pc : Nat) : Row :=
  match inp.mode with
  | .listing => .listing pc (listingLabel cfg T inp.label) (strip (listingForm cfg T d))
  | .trace => .trace inp.label (strip d.text)

@[simp] theorem emit_true (row : Row) : emit true row = [] := rfl

@[simp] theorem emit_false (row : Row) : emit false row = [row] := rfl

/-- Step 3 of RENDER writes the result, the program counter and the rows, in either mode. -/
theorem deliver_eq (d : Decoded) (T : Text) (s : State) :
    deliver d T s = { s with
      result := .decoded d
      pc     := pcAfterRender s.inputs s.pc
      rows   := s.rows ++ emit s.inputs.quiet (renderedRow s.config d T s.inputs s.pc) } := by
  unfold deliver pcAfterRender renderedRow
  cases s.inputs.mode <;> rfl

/-- The state after a RENDER call that completes. -/
def afterRender (s : State) (inp : RenderInputs) (rest : List HostAction) : State :=
  { s with
    pending := rest
    inputs  := inp
    result  := .decoded (renderedRecord s inp.template)
    pc      := pcAfterRender inp s.pc
    rows    := s.rows ++ emit inp.quiet
      (renderedRow s.config (renderedRecord s inp.template) (normalise inp.template) inp s.pc) }

/-- The fault of a RENDER call that does not complete: the lower index that is not in the memory. -/
def renderFault (m : Memory) (pc : Nat) : Fault :=
  .outOfBounds (if m.size ≤ pc then pc else pc + 1)

theorem runRender_eq_renderFault (s : State) :
    runRender s = if inBounds s.mem s.pc s.inputs.template then
        .next (deliver (renderedRecord s s.inputs.template) (normalise s.inputs.template) s)
      else .fault (renderFault s.mem s.pc) := by
  rw [runRender_eq, renderFault]
  split_ifs <;> rfl

/-- Everything a step on a RENDER call can do. -/
theorem step_render {s : State} {inp : RenderInputs} {rest : List HostAction} (h : s.pending = .render inp :: rest) :
    step s = if inBounds s.mem s.pc inp.template then .next (afterRender s inp rest)
      else .fault (renderFault s.mem s.pc) := by
  calc step s = runRender ((s.withPending rest).withInputs inp) := takeAction_cons h
    _ = _ := by
      rw [runRender_eq_renderFault, deliver_eq]
      rfl

/-! ### The other actions, as one equation each -/

theorem step_findByName {s : State} {query : Text} {strictness : Strictness} {rest : List HostAction}
    (h : s.pending = .findByName query strictness :: rest) :
    step s = .next { s with pending := rest, result := .lookup (findByName s.otab query strictness) } :=
  takeAction_cons h

theorem step_findByOpcode {s : State} {code : Byte} {rest : List HostAction}
    (h : s.pending = .findByOpcode code :: rest) :
    step s = .next { s with pending := rest, result := .lookup (findByOpcode s.otab code) } :=
  takeAction_cons h

theorem step_movePc {s : State} {pc : Nat} {rest : List HostAction} (h : s.pending = .movePc pc :: rest) :
    step s = .next { s with pending := rest, pc := pc } :=
  takeAction_cons h

theorem step_supplyMemory {s : State} {bytes : List Byte} {rest : List HostAction}
    (h : s.pending = .supplyMemory bytes :: rest) :
    step s = .next { s with pending := rest, mem := Memory.ofBytes bytes } :=
  takeAction_cons h

theorem step_idle {s : State} (h : s.pending = []) : step s = .next s :=
  takeAction_idle h

/-- A step on a RENDER call that completes has left `afterRender`. -/
theorem step_render_eq_next {s t : State} {inp : RenderInputs} {rest : List HostAction}
    (h : s.pending = .render inp :: rest) (ht : step s = .next t) : t = afterRender s inp rest := by
  rw [step_render h] at ht
  split_ifs at ht
  cases ht
  rfl

/-! ### The program counter -/

/-- Settles O15, by the kind of the call. -/
theorem onlyAListingRenderAdvancesThePc : Obligations.OnlyAListingRenderAdvancesThePc := by
  intro s a rest hp ha
  refine ⟨fun t ht => ?_, fun _ _ => rfl⟩
  cases a with
  | render inp =>
    have hpc : t.pc = pcAfterRender inp s.pc := congrArg State.pc (step_render_eq_next hp ht)
    refine ⟨?_, ?_, fun hno => ?_⟩
    · rintro _ ⟨⟩ hm hw
      rw [hpc, pcAfterRender_listing hm, hw]; rfl
    · rintro _ ⟨⟩ hm hw
      rw [hpc, pcAfterRender_listing hm, hw]; rfl
    · rw [hpc, pcAfterRender_of_not_listing fun hm => hno ⟨inp, rfl, hm⟩]
  | findByName query strictness =>
    cases (step_findByName hp).symm.trans ht
    exact ⟨nofun, nofun, fun _ => rfl⟩
  | findByOpcode code =>
    cases (step_findByOpcode hp).symm.trans ht
    exact ⟨nofun, nofun, fun _ => rfl⟩
  | movePc pc => cases ha
  | supplyMemory bytes => cases ha

/-! ### What a call does not depend on -/

/-- Settles O34: `quiet` reaches neither the bounds, nor the record, nor the program counter, nor the row. -/
theorem quietOnlySilences : Obligations.QuietOnlySilences := by
  intro s inp rest hp s'
  have hquiet := step_render hp
  have hloud := step_render (s := s') rfl
  by_cases hb : inBounds s.mem s.pc inp.template
  · rw [if_pos hb] at hquiet hloud
    exact .inr ⟨_, _, hquiet, List.append_nil _, hloud⟩
  · rw [if_neg hb] at hquiet hloud
    exact .inl ⟨_, hquiet, hloud⟩

/-- Settles O39: each call's result, program counter and new rows are functions of what the two states share. -/
theorem callsRememberNothing : Obligations.CallsRememberNothing := by
  refine ⟨fun s s' a rest rest' ha hp hp' hconfig hotab hmem hpc => ?_, fun _ _ _ => rfl⟩
  cases a with
  | render inp =>
    have hstep := step_render hp
    have hstep' := step_render hp'
    have hrecord : renderedRecord s' inp.template = renderedRecord s inp.template := by
      simp only [renderedRecord, hconfig, hmem, hpc]
    by_cases hb : inBounds s.mem s.pc inp.template
    · rw [if_pos hb] at hstep
      rw [hmem, hpc, if_pos hb] at hstep'
      refine .inr ⟨_, _, _, hstep, hstep', ?_, ?_, rfl, ?_⟩
      all_goals simp only [afterRender, hrecord, hconfig, hpc]
    · rw [if_neg hb] at hstep
      rw [hmem, hpc, if_neg hb] at hstep'
      exact .inl ⟨_, hstep, hstep'⟩
  | findByName query strictness =>
    refine .inr ⟨_, _, [], step_findByName hp, step_findByName hp', ?_, hpc, ?_, ?_⟩
    all_goals simp only [hotab, List.append_nil]
  | findByOpcode code =>
    refine .inr ⟨_, _, [], step_findByOpcode hp, step_findByOpcode hp', ?_, hpc, ?_, ?_⟩
    all_goals simp only [hotab, List.append_nil]
  | movePc pc => cases ha
  | supplyMemory bytes => cases ha

/-- Settles O41, by the caller's next action. -/
theorem tableAndParametersNeverChange : Obligations.TableAndParametersNeverChange := by
  intro s t ht
  cases hp : s.pending with
  | nil =>
    cases (step_idle hp).symm.trans ht
    exact ⟨rfl, rfl⟩
  | cons a rest =>
    cases a with
    | render inp =>
      cases step_render_eq_next hp ht
      exact ⟨rfl, rfl⟩
    | findByName query strictness =>
      cases (step_findByName hp).symm.trans ht
      exact ⟨rfl, rfl⟩
    | findByOpcode code =>
      cases (step_findByOpcode hp).symm.trans ht
      exact ⟨rfl, rfl⟩
    | movePc pc =>
      cases (step_movePc hp).symm.trans ht
      exact ⟨rfl, rfl⟩
    | supplyMemory bytes =>
      cases (step_supplyMemory hp).symm.trans ht
      exact ⟨rfl, rfl⟩

end Sys2Proof.Machine

/-! The fields of a delivered record, the bytes of a supplied memory, the state at reset and the sentinel. -/

namespace Sys2Proof.Machine

/-! ### The fields of a record -/

theorem customFlag_iff (sh : Shape) : customFlag sh = true ↔ sh = .jcn ∨ sh = .jun ∨ sh = .jms := by
  cases sh <;> decide

@[simp] theorem recordOf_shape (token T : Text) (ops : Operands) : (recordOf token T ops).shape = ops.shape := by
  cases ops <;> rfl

/-- The check `Decoded.fieldsFit` field by field (10_state.md R31). -/
theorem Decoded.fields_of_fieldsFit {d : Decoded} (h : d.fieldsFit = true) :
    d.custom = customFlag d.shape ∧ d.symbolic.isSome = customFlag d.shape ∧
    d.reg.isSome = decide (d.shape = .isz) ∧ d.cond.isSome = decide (d.shape = .jcn) ∧
    d.value.isSome = decide (d.shape ≠ .other) ∧
    (d.shape = .fim ∨ d.shape = .isz ∨ d.shape = .jcn → ∀ v, d.value = some v → v.toNat ≤ 255) := by
  simp only [Decoded.fieldsFit, Bool.and_eq_true, beq_iff_eq] at h
  obtain ⟨⟨⟨⟨⟨hcustom, hsymbolic⟩, hreg⟩, hcond⟩, hvalue⟩, hrange⟩ := h
  refine ⟨hcustom, hsymbolic, hreg, hcond, hvalue, fun hshape v hv => ?_⟩
  rcases hshape with hs | hs | hs <;> simpa only [hs, hv, decide_eq_true_eq] using hrange

/-- Settles O11: every instruction delivers the record of its operands, whose fields fit. -/
theorem deliveredFieldsFitTheShape : Obligations.DeliveredFieldsFitTheShape := by
  intro i s t ht
  cases (exec_eq i s).symm.trans ht
  refine ⟨_, deliver_result _ _ s, recordOf_shape _ _ _, ?_⟩
  obtain ⟨hcustom, hsymbolic, hreg, hcond, hvalue, hrange⟩ := Decoded.fields_of_fieldsFit
    (recordOf_fieldsFit s.config.addr12Token (deliveredTemplate s.config i) i.operands)
  refine ⟨?_, ?_, ?_, ?_, ?_, hrange⟩
  · rw [hcustom, customFlag_iff]
  · rw [← Option.isSome_iff_ne_none, hsymbolic, customFlag_iff]
  · rw [← Option.isSome_iff_ne_none, hreg, decide_eq_true_iff]
  · rw [← Option.isSome_iff_ne_none, hcond, decide_eq_true_iff]
  · rw [← Option.isSome_iff_ne_none, hvalue, decide_eq_true_iff]

/-! ### The memory a caller supplies -/

/-- The cells of a list of bytes read as the list, the unlisted ones included. -/
theorem lookup_cellsFrom : ∀ {bs : List Byte} {b : Byte} (a i : Nat), bs[i]? = some b →
    ((cellsFrom a bs).lookup (a + i)).getD fillByte = b
  | [], _, _, _, h => by simp at h
  | c :: bs, b, a, 0, h => by
    obtain rfl : c = b := by simpa using h
    by_cases hc : c = fillByte
    · have hnone : (cellsFrom (a + 1) bs).lookup a = none := lookup_none_of_lt fun _ hd => (mem_cellsFrom hd).1
      simp [cellsFrom, hc, hnone]
    · simp [cellsFrom, hc]
  | c :: bs, b, a, i + 1, h => by
    have ih := lookup_cellsFrom (a + 1) i (bs := bs) (by simpa using h)
    rw [show a + 1 + i = a + (i + 1) by omega] at ih
    have hne : (a + (i + 1) == a) = false := by simp
    by_cases hc : c = fillByte
    · simpa only [cellsFrom, if_pos hc] using ih
    · simpa only [cellsFrom, if_neg hc, List.lookup_cons, hne] using ih

theorem Memory.peek_ofBytes {bytes : List Byte} {i : Nat} {b : Byte} (h : bytes[i]? = some b) :
    (Memory.ofBytes bytes).peek i = b := by
  simpa [Memory.peek, Memory.ofBytes] using lookup_cellsFrom 0 i h

theorem memRead_ofBytes {bytes : List Byte} {i : Nat} {b : Byte} (h : bytes[i]? = some b) :
    memRead (Memory.ofBytes bytes) i = .ok b := by
  obtain ⟨hi, -⟩ := List.getElem?_eq_some_iff.mp h
  rw [memRead_of_lt (m := Memory.ofBytes bytes) hi, Memory.peek_ofBytes h]

/-- Settles O54: the supplied memory is `Memory.ofBytes`. -/
theorem suppliedMemoryHoldsItsBytes : Obligations.SuppliedMemoryHoldsItsBytes :=
  fun _ bytes _ hp => ⟨Memory.ofBytes bytes, step_supplyMemory hp, Memory.ofBytes_wf bytes,
    fun _ _ h => memRead_ofBytes h, fun _ h => memRead_of_ge (m := Memory.ofBytes bytes) h⟩

/-! ### Reset and the sentinel -/

/-- Settles O1: the suggested defaults are legal, and there is nothing else yet that could break the invariant. -/
theorem resetIsAGoodState : Obligations.ResetIsAGoodState where
  config  := by decide
  otab    := List.forall_mem_nil _
  mem     := ⟨List.Pairwise.nil, List.forall_mem_nil _⟩
  pending := List.forall_mem_nil _
  inputs  := by decide
  result  := trivial
  rows    := List.forall_mem_nil _

/-- Settles O45: an entry is shown with a number that is not negative. -/
theorem sentinelIsNoEntry : Obligations.SentinelIsNoEntry := by
  refine ⟨rfl, fun e h => ?_⟩
  have hopcode : (e.opcode.toNat : Int) = -1 := congrArg Prod.fst h
  omega

end Sys2Proof.Machine

/-! What instructions and calls leave alone: the memory and the table above all (20_memory.md R38). -/

namespace Sys2Proof.Machine

/-- Settles O53: the read's two branches, inside and outside the capacity. -/
theorem memReadChecksTheBound : Obligations.MemReadChecksTheBound :=
  fun _ _ => ⟨memRead_of_lt, memRead_of_ge⟩

/-- In either mode a delivery only appends to the rows handed over before. -/
theorem deliver_rows_prefix (d : Decoded) (T : Text) (s : State) : s.rows <+: (deliver d T s).rows := by
  rw [deliver_eq]
  exact List.prefix_append _ _

/-- Settles O24: every instruction ends in a delivery, which writes only the result, the program counter and the rows. -/
theorem instructionsChangeOnlyTheirOutputs : Obligations.InstructionsChangeOnlyTheirOutputs := by
  intro i s t ht
  cases (exec_eq i s).symm.trans ht
  refine ⟨fun a => ?_, deliver_otab _ _ s, deliver_config _ _ s, deliver_pending _ _ s, deliver_inputs _ _ s,
    deliver_pc_trace _ _ s, deliver_rows_prefix _ _ s⟩
  rw [deliver_mem]

/-- A call leaves the memory as it was; only the caller's own `supplyMemory` replaces it. -/
theorem step_call_mem {s t : State} {a : HostAction} {rest : List HostAction} (hp : s.pending = a :: rest)
    (ha : isCall a = true) (ht : step s = .next t) : t.mem = s.mem := by
  cases a with
  | render inp =>
    cases step_render_eq_next hp ht
    rfl
  | findByName query strictness =>
    cases (step_findByName hp).symm.trans ht
    rfl
  | findByOpcode code =>
    cases (step_findByOpcode hp).symm.trans ht
    rfl
  | movePc pc => cases ha
  | supplyMemory bytes => cases ha

/-- Settles O40: the memory is that of before, so every read of it is; the table never changes (O41). -/
theorem callsWriteNoMemoryAndNoTable : Obligations.CallsWriteNoMemoryAndNoTable := by
  intro s t a rest hp ha ht
  have hmem : t.mem = s.mem := step_call_mem hp ha ht
  obtain ⟨hotab, -⟩ := tableAndParametersNeverChange s t ht
  exact ⟨hmem, fun i => by rw [hmem], hotab⟩

end Sys2Proof.Machine

/-! Decoding and encoding: the bit fields put back together (30_encoding.md R62 to R64), the round trip of an encoded
instruction, and the instruction that a RENDER call takes from the memory. -/

namespace Sys2Proof.Machine

/-! ### The fields of byte 0 -/

theorem lowNibble_toNat (b : Byte) : (lowNibble b).toNat = b.toNat % 16 := by
  simp [lowNibble]

/-- A number put in front of a byte, by shift and bitwise or, is a sum. -/
theorem shiftLeft_or_byte (n : Nat) (b : Byte) : n <<< 8 ||| b.toNat = n * 256 + b.toNat := by
  rw [← Nat.shiftLeft_add_eq_or_of_lt b.isLt, Nat.shiftLeft_eq]

theorem addr12_toNat (b0 b1 : Byte) : (addr12 b0 b1).toNat = b0.toNat % 16 * 256 + b1.toNat := by
  rw [addr12, BitVec.toNat_append, lowNibble_toNat, shiftLeft_or_byte]

/-- The mask `0x0F` of the spec's formulas is the remainder by 16. -/
theorem and_0x0F (n : Nat) : n &&& 0x0F = n % 16 :=
  Nat.and_two_pow_sub_one_eq_mod n 4

@[simp] theorem lowNibble_append (high low : Nibble) : lowNibble (high ++ low) = low :=
  BitVec.extractLsb'_append_eq_right

@[simp] theorem addr12_split (high : Nibble) (address : Addr12) :
    addr12 (high ++ address.extractLsb' 8 4) (address.extractLsb' 0 8) = address := by
  rw [addr12, lowNibble_append, BitVec.extractLsb'_append_extractLsb'_eq_extractLsb' (by rfl)]
  exact BitVec.extractLsb'_eq_self

/-- Settles O51: the address is the concatenation of nibble and byte, which is a sum and a bitwise or alike. -/
theorem addressIsAssembledFromNibbleAndByte : Obligations.AddressIsAssembledFromNibbleAndByte := by
  intro b0 b1
  refine ⟨addr12_toNat b0 b1, ?_, Nat.le_of_lt_succ (addr12 b0 b1).isLt⟩
  rw [addr12_toNat, shiftLeft_or_byte, and_0x0F]

/-- Settles O52: the field is the byte modulo 16. -/
theorem fieldIsTheLowNibble : Obligations.FieldIsTheLowNibble := by
  refine ⟨fun b => ⟨?_, lowNibble_toNat b, fun b' h => ?_⟩, rfl, rfl, rfl⟩
  · rw [lowNibble_toNat, and_0x0F]
  · exact BitVec.eq_of_toNat_eq (by rw [lowNibble_toNat, lowNibble_toNat, h])

/-! ### The round trip -/

/-- A shape takes back the operands that were encoded for it, whatever the bits it does not examine. -/
theorem resolve_encodeOperands (fill : Byte) (ops : Operands) (after : List Byte) :
    resolve ops.shape (encodeOperands fill ops ++ after) = .ok (ops, after) := by
  cases ops <;> simp [Operands.shape, encodeOperands, resolve]

/-- The row of a template that is neither the end directive nor the artefact. -/
def plainInstr (T : Text) : Operands → Instr
  | .fim data8 => .fim T data8
  | .isz reg operand => .isz T reg operand
  | .jcn cond address8 => .jcn T cond address8
  | .jun address => .jun T address
  | .jms address => .jms T address
  | .other => .other T

theorem instrOf_of_plain {endDirective T : Text} (ha : isArtefact T = false) (he : T ≠ endDirective)
    (ops : Operands) : instrOf endDirective T ops = plainInstr T ops := by
  unfold instrOf
  rw [normalise_of_not_artefact ha, if_neg he, ha]
  cases ops <;> rfl

theorem plainInstr_wf {cfg : Config} {T : Text} {ops : Operands} (h : plainTemplate cfg ops.shape T) :
    (plainInstr T ops).wf cfg := by
  cases ops <;> exact decide_eq_true h

/-- A plain template selects its own shape, and the row of that shape. -/
theorem plainTemplate_selects {cfg : Config} {sh : Shape} {T : Text} (h : plainTemplate cfg sh T) :
    shapeOf (normalise T) = sh ∧ ∀ ops, instrOf cfg.endDirective T ops = plainInstr T ops := by
  obtain ⟨-, hsh, ha, he⟩ := h
  exact ⟨by rw [normalise_of_not_artefact ha, hsh], instrOf_of_plain ha he⟩

/-- The template of a well-formed instruction selects the shape of its operands and, with them, the instruction. -/
theorem encodeTemplate_selects {cfg : Config} {i : Instr} (h : i.wf cfg) :
    shapeOf (normalise (encodeTemplate cfg.endDirective i)) = i.operands.shape ∧
      instrOf cfg.endDirective (encodeTemplate cfg.endDirective i) i.operands = i := by
  cases i with
  | endDirective ops =>
    obtain ⟨-, ha, hsh⟩ := of_decide_eq_true h
    have hn : normalise cfg.endDirective = cfg.endDirective := normalise_of_not_artefact ha
    exact ⟨(congrArg shapeOf hn).trans hsh.symm, if_pos hn⟩
  | artefact stored =>
    obtain ⟨-, ha, he⟩ := of_decide_eq_true h
    exact ⟨shapeOf_normalise_of_artefact ha, (if_neg he).trans (if_pos ha)⟩
  | _ => exact (plainTemplate_selects (of_decide_eq_true h)).imp id fun hi => hi _

/-- Settles O6: the template selects the shape and the row, the shape takes the operands back from the bytes. -/
theorem decodeOfEncodeIsTheInstruction : Obligations.DecodeOfEncodeIsTheInstruction := by
  intro cfg i fill after h
  obtain ⟨hshape, hinstr⟩ := encodeTemplate_selects h
  rw [decode, hshape, encode, resolve_encodeOperands]
  simp only [hinstr]

/-- The instruction that texts over the alphabet select is well formed, for operands of the template's shape
(30_encoding.md R75). -/
theorem instrOf_wf {cfg : Config} {template : Text} {ops : Operands} (hcfg : cfg.wf)
    (ht : printable template = true) (hsh : ops.shape = shapeOf (normalise template)) :
    (instrOf cfg.endDirective template ops).wf cfg := by
  by_cases he : normalise template = cfg.endDirective
  · have hna : isArtefact cfg.endDirective = false := he ▸ normalise_not_artefact template
    unfold instrOf
    rw [if_pos he]
    exact decide_eq_true ⟨hcfg.1, hna, he ▸ hsh⟩
  · cases ha : isArtefact template with
    | true =>
      unfold instrOf
      rw [if_neg he, if_pos ha]
      exact decide_eq_true ⟨ht, ha, he⟩
    | false =>
      rw [normalise_of_not_artefact ha] at he hsh
      rw [instrOf_of_plain ha he]
      exact plainInstr_wf ⟨ht, hsh.symm, ha, he⟩

/-- Settles O5, each word with its template by running the decoder. -/
theorem formatWordsDecodeToTheirInstructions : Obligations.FormatWordsDecodeToTheirInstructions := by
  unfold Obligations.FormatWordsDecodeToTheirInstructions
  decide

/-! ### The instruction that a RENDER call takes from the memory -/

/-- A step on a RENDER call runs the instruction that it fetches. -/
theorem step_of_fetchInstr {s : State} {inp : RenderInputs} {rest : List HostAction} {i : Instr}
    (hp : s.pending = .render inp :: rest)
    (hi : fetchInstr { s with pending := rest, inputs := inp } = .ok i) :
    step s = exec i { s with pending := rest, inputs := inp } := by
  calc step s = runRender { s with pending := rest, inputs := inp } := takeAction_cons hp
    _ = _ := by rw [runRender, hi]

/-- A fetch whose bytes are in the memory takes the operands of the template's shape from them. -/
theorem fetchInstr_of_inBounds {s : State} (h : inBounds s.mem s.pc s.inputs.template) :
    fetchInstr s = .ok (instrOf s.config.endDirective s.inputs.template
      (operandsOf (s.mem.peek s.pc) (s.mem.peek (s.pc + 1)) (shapeOf (normalise s.inputs.template)))) := by
  rw [fetchInstr_eq]
  by_cases ho : shapeOf (normalise s.inputs.template) = .other
  · have hlt := (inBounds_other ho).mp h
    rw [if_neg (by omega), if_pos ho, ho, operandsOf]
  · have hlt := (inBounds_two ho).mp h
    rw [if_neg (by omega), if_neg ho, if_neg (by omega)]

/-- Settles O4: the instruction is the one that the call fetches. -/
theorem inBoundsRenderRunsAWellFormedInstruction : Obligations.InBoundsRenderRunsAWellFormedInstruction := by
  intro s inp rest hp hcfg hinp hb
  have hsh := operandsOf_shape (s.mem.peek s.pc) (s.mem.peek (s.pc + 1)) (shapeOf (normalise inp.template))
  refine ⟨_, instrOf_wf hcfg hinp.1 hsh, ?_, step_of_fetchInstr hp (fetchInstr_of_inBounds hb)⟩
  rw [operands_instrOf _ _ hsh, hsh]

/-- The bytes that stand in the memory at `pc`, as many as a shape consumes, are the ones it reads. -/
theorem readBytes_of_standing {m : Memory} {pc : Nat} {sh : Shape} {bytes : List Byte}
    (hlen : bytes.length = bytesRead sh) (h : ∀ k b, bytes[k]? = some b → memRead m (pc + k) = .ok b) :
    readBytes m pc sh = .ok bytes := by
  cases sh with
  | other =>
    obtain ⟨b0, rfl⟩ := List.length_eq_one_iff.mp hlen
    have h0 : memRead m pc = .ok b0 := h 0 b0 rfl
    simp only [readBytes, h0]
  | _ =>
    obtain ⟨b0, b1, rfl⟩ := List.length_eq_two.mp hlen
    have h0 : memRead m pc = .ok b0 := h 0 b0 rfl
    have h1 : memRead m (pc + 1) = .ok b1 := h 1 b1 rfl
    simp only [readBytes, readPair, h0, h1]

theorem length_encodeOperands (fill : Byte) (ops : Operands) :
    (encodeOperands fill ops).length = bytesRead ops.shape := by
  cases ops <;> rfl

/-- Settles O7: the call reads the encoded bytes, and decoding them gives the instruction (O6). -/
theorem encodedInstructionRunsFromMemory : Obligations.EncodedInstructionRunsFromMemory := by
  intro s i fill inp rest hwf hp ht hmem
  have hread : readBytes s.mem s.pc (shapeOf (normalise inp.template)) = .ok (encode fill i) := by
    rw [ht, (encodeTemplate_selects hwf).1]
    exact readBytes_of_standing (length_encodeOperands fill i.operands) hmem
  have hdecode : decode s.config.endDirective inp.template (encode fill i) = .ok (i, []) := by
    simpa only [ht, List.append_nil] using decodeOfEncodeIsTheInstruction s.config i fill [] hwf
  exact step_of_fetchInstr hp (by simp only [fetchInstr, hread, hdecode])

/-! ### The bits that are not examined -/

/-- A shape takes the same operands from bytes that agree in the bits it examines (30_encoding.md R65). -/
theorem operandsOf_congr {sh : Shape} {b0 b1 b0' b1' : Byte}
    (h0 : sh ≠ .fim → sh ≠ .other → lowNibble b0' = lowNibble b0) (h1 : sh ≠ .other → b1' = b1) :
    operandsOf b0' b1' sh = operandsOf b0 b1 sh := by
  cases sh <;> simp_all [operandsOf, addr12]

/-- Settles O38: bounds and faults depend on the capacity, the record on the operands of the bytes. -/
theorem unexaminedBitsReachNoOutput : Obligations.UnexaminedBitsReachNoOutput := by
  intro s inp rest m hp hsize h0 h1
  have hstep' := step_render (s := { s with mem := m }) hp
  have hrecord : renderedRecord { s with mem := m } inp.template = renderedRecord s inp.template := by
    simp only [renderedRecord, operandsOf_congr h0 h1]
  by_cases hb : inBounds s.mem s.pc inp.template
  · rw [step_render hp, if_pos hb, hstep', if_pos (by rwa [inBounds, hsize])]
    simp only [mapNext, afterRender, hrecord]
  · rw [step_render hp, if_neg hb, hstep', if_neg (by rwa [inBounds, hsize])]
    simp only [mapNext, renderFault, hsize]

/-! ### The two-character artefact -/

theorem renderedRecord_of_other {s : State} {template : Text} (h : shapeOf (normalise template) = .other) :
    renderedRecord s template = otherRecord (normalise template) := by
  rw [renderedRecord, h]
  rfl

/-- Settles O31: the artefact is an OTHER template of two characters. -/
theorem artefactIsCompactedByAStep : Obligations.ArtefactIsCompactedByAStep := by
  intro s inp rest c0 c1 stray hp ht hpc
  have hn : normalise inp.template = [c0, c1] := ht ▸ normalise_of_artefact rfl
  have hsh : shapeOf (normalise inp.template) = .other := hn ▸ shapeOf_of_length_two le_rfl
  have hrecord : renderedRecord s inp.template = otherRecord [c0, c1] := hn ▸ renderedRecord_of_other hsh
  exact ⟨_, (step_render hp).trans (if_pos ((inBounds_other hsh).mpr hpc)), congrArg Result.decoded hrecord⟩

/-! ### What a completed delivery leaves -/

/-- The form that a listing shows of a template other than the end directive (42_render_modes.md R101). -/
def listedForm (d : Decoded) : Text :=
  if d.custom then d.symbolic.getD d.text else d.text

theorem renderedRow_listing_endDirective {cfg : Config} {T : Text} {inp : RenderInputs} (d : Decoded) (pc : Nat)
    (hm : inp.mode = .listing) (hT : T = cfg.endDirective) :
    renderedRow cfg d T inp pc = .listing pc [] (strip d.text) := by
  simp [renderedRow, hm, listingLabel, listingForm, honoured, hT]

theorem renderedRow_listing {cfg : Config} {T : Text} {inp : RenderInputs} (d : Decoded) (pc : Nat)
    (hm : inp.mode = .listing) (hT : T ≠ cfg.endDirective) :
    renderedRow cfg d T inp pc = .listing pc inp.label (strip (listedForm d)) := by
  simp [renderedRow, hm, listingLabel, listingForm, honoured, hT, listedForm]

theorem renderedRow_trace {inp : RenderInputs} (cfg : Config) (d : Decoded) (T : Text) (pc : Nat)
    (hm : inp.mode = .trace) : renderedRow cfg d T inp pc = .trace inp.label (strip d.text) := by
  simp [renderedRow, hm]

theorem emit_eq (quiet : Bool) (row : Row) : emit quiet row = if quiet = true then [] else [row] := by
  cases quiet <;> rfl

/-- A delivery leaves what `CompletesWith` writes out field by field. -/
theorem deliver_completesWith (d : Decoded) (T : Text) (s : State) :
    CompletesWith (.next (deliver d T s)) s T d (listedForm d) := by
  rw [deliver_eq, emit_eq]
  refine ⟨fun hm => ?_, fun hm => ?_⟩
  · rw [pcAfterRender_listing hm]
    by_cases hT : T = s.config.endDirective
    · rw [renderedRow_listing_endDirective d s.pc hm hT, if_pos hT]
      rfl
    · rw [renderedRow_listing d s.pc hm hT, if_neg hT]
      rfl
  · rw [pcAfterRender_of_not_listing (by rw [hm]; decide), renderedRow_trace s.config d T s.pc hm]

/-- Settles O22: the artefact delivers the OTHER record of its first two characters. -/
theorem artefactCompletes : Obligations.ArtefactCompletes := by
  intro stored s h
  have hn : normalise stored = stored.take 2 := normalise_of_artefact ((isArtefact_iff stored).mpr h)
  rw [exec_eq, deliveredTemplate, hn]
  exact deliver_completesWith (otherRecord (stored.take 2)) (stored.take 2) s

end Sys2Proof.Machine

/-! The two lookups as the library's searches of a list: the first entry with the query's key, the last one with the
opcode (40_lookup.md R82 to R84); and what can stop a step. -/

namespace Sys2Proof.Machine

/-! ### The first match -/

/-- The key of FIND_BY_NAME as one expression in the strictness (40_lookup.md R82). -/
theorem lookupKey_eq_ite (strictness : Strictness) (e : OpcodeEntry) :
    lookupKey strictness e = if strictness = .short then e.mnemonic.take 3 else e.mnemonic := by
  cases strictness <;> rfl

theorem findByName_eq_find? (query : Text) (strictness : Strictness) : ∀ table : List OpcodeEntry,
    findByName table query strictness =
      (table.find? (lookupKey strictness · = query)).elim .notFound .found
  | [] => rfl
  | e :: es => by
    have ih := findByName_eq_find? query strictness es
    by_cases he : lookupKey strictness e = query
    · simp [findByName, he]
    · simp [findByName, he, ih]

/-- FIND_BY_NAME finds the first entry with the query's key, or there is no such entry (40_lookup.md R82). -/
theorem findByName_cases (table : List OpcodeEntry) (query : Text) (strictness : Strictness) :
    (∃ before e after, table = before ++ e :: after ∧ lookupKey strictness e = query ∧
      (∀ x ∈ before, lookupKey strictness x ≠ query) ∧ findByName table query strictness = .found e) ∨
    ((∀ x ∈ table, lookupKey strictness x ≠ query) ∧ findByName table query strictness = .notFound) := by
  rw [findByName_eq_find?]
  cases h : table.find? (lookupKey strictness · = query) with
  | none => exact .inr ⟨by simpa using h, rfl⟩
  | some e =>
    obtain ⟨hkey, before, after, htable, hbefore⟩ := List.find?_eq_some_iff_append.mp h
    exact .inl ⟨before, e, after, htable, by simpa using hkey, by simpa using hbefore, rfl⟩

/-- Settles O42, by the two ends of the scan. -/
theorem findByNameReturnsTheFirstMatch : Obligations.FindByNameReturnsTheFirstMatch := by
  intro s query strictness rest hp key
  have hkey : lookupKey strictness = key := funext (lookupKey_eq_ite strictness)
  exact ⟨_, step_findByName hp, hkey ▸ findByName_cases s.otab query strictness⟩

/-- An entry that FIND_BY_NAME finds has the query as its key. -/
theorem lookupKey_of_findByName {table : List OpcodeEntry} {query : Text} {strictness : Strictness} {e : OpcodeEntry}
    (h : findByName table query strictness = .found e) : lookupKey strictness e = query := by
  rcases findByName_cases table query strictness with ⟨_, _, _, -, hkey, -, hfound⟩ | ⟨-, hnone⟩
  · cases hfound.symm.trans h
    exact hkey
  · cases hnone.symm.trans h

theorem length_lookupKey_short_le (e : OpcodeEntry) : (lookupKey .short e).length ≤ 3 :=
  List.length_take_le 3 e.mnemonic

/-- A key of fewer than three characters is the whole mnemonic, under SHORT too: nothing was cut off. -/
theorem mnemonic_eq_of_length_lookupKey_lt {strictness : Strictness} {e : OpcodeEntry}
    (h : (lookupKey strictness e).length < 3) : e.mnemonic = lookupKey strictness e := by
  cases strictness with
  | full => rfl
  | short =>
    simp only [lookupKey, List.length_take] at h
    exact (List.take_of_length_le (by omega)).symm

/-- Settles O44: the key of an entry that is found is the query, so each case is about the length of a key. -/
theorem shortQueriesMatchByLength : Obligations.ShortQueriesMatchByLength := by
  intro table query
  have hwhole {q : Text} {st : Strictness} {e : OpcodeEntry} (hq : q.length < 3)
      (he : findByName table q st = .found e) : e.mnemonic = q := by
    have hkey := lookupKey_of_findByName he
    exact (mnemonic_eq_of_length_lookupKey_lt (hkey ▸ hq)).trans hkey
  refine ⟨fun hlong => ?_, fun hshort _ he => hwhole hshort he, fun _ _ he => hwhole (by decide) he⟩
  cases he : findByName table query .short with
  | notFound => rfl
  | found e =>
    have hkey := length_lookupKey_short_le e
    rw [lookupKey_of_findByName he] at hkey
    omega

/-! ### The last match -/

/-- The scan answers the last entry with the opcode, or the result it began with (40_lookup.md R84). -/
theorem opcodeScan_eq_find?_reverse (code : Byte) : ∀ (result : LookupResult) (es : List OpcodeEntry),
    opcodeScan code result es = (es.reverse.find? (·.opcode = code)).elim result .found
  | _, [] => rfl
  | result, e :: es => by
    rw [opcodeScan, opcodeScan_eq_find?_reverse code _ es, List.reverse_cons, List.find?_append]
    cases es.reverse.find? (·.opcode = code) with
    | some x => rfl
    | none => by_cases he : e.opcode = code <;> simp [he]

/-- FIND_BY_OPCODE finds the last entry with the opcode, or there is no such entry (40_lookup.md R84). -/
theorem findByOpcode_cases (table : List OpcodeEntry) (code : Byte) :
    (∃ before e after, table = before ++ e :: after ∧ e.opcode = code ∧ (∀ x ∈ after, x.opcode ≠ code) ∧
      findByOpcode table code = .found e) ∨
    ((∀ x ∈ table, x.opcode ≠ code) ∧ findByOpcode table code = .notFound) := by
  rw [findByOpcode, opcodeScan_eq_find?_reverse]
  cases h : table.reverse.find? (·.opcode = code) with
  | none => exact .inr ⟨by simpa using h, rfl⟩
  | some e =>
    obtain ⟨hcode, after, before, htable, hafter⟩ := List.find?_eq_some_iff_append.mp h
    exact .inl ⟨before.reverse, e, after.reverse, by simpa using List.reverse_eq_iff.mp htable, by simpa using hcode,
      by simpa using hafter, rfl⟩

/-- Settles O43, by the two ends of the scan. -/
theorem findByOpcodeReturnsTheLastMatch : Obligations.FindByOpcodeReturnsTheLastMatch :=
  fun s code _ hp => ⟨_, step_findByOpcode hp, findByOpcode_cases s.otab code⟩

/-! ### What can stop a step -/

/-- A step completes, or it faults on a RENDER call. -/
theorem step_next_or_render_faults (s : State) :
    (∃ t, step s = .next t) ∨ ∃ inp rest f, s.pending = .render inp :: rest ∧ step s = .fault f := by
  cases hp : s.pending with
  | nil => exact .inl ⟨_, step_idle hp⟩
  | cons a rest =>
    cases a with
    | findByName query strictness => exact .inl ⟨_, step_findByName hp⟩
    | findByOpcode code => exact .inl ⟨_, step_findByOpcode hp⟩
    | movePc pc => exact .inl ⟨_, step_movePc hp⟩
    | supplyMemory bytes => exact .inl ⟨_, step_supplyMemory hp⟩
    | render inp =>
      by_cases hb : inBounds s.mem s.pc inp.template
      · exact .inl ⟨_, (step_render hp).trans (if_pos hb)⟩
      · exact .inr ⟨inp, rest, _, rfl, (step_render hp).trans (if_neg hb)⟩

/-- Settles O13, by the two outcomes that a step can have. -/
theorem onlyRenderCallsStop : Obligations.OnlyRenderCallsStop := by
  intro s
  rcases step_next_or_render_faults s with ⟨t, ht⟩ | ⟨inp, rest, f, hp, hf⟩
  · simp [ht]
  · simp [hf, hp]

end Sys2Proof.Machine

/-! The shape rules of 41_render_shapes.md: how each shape is selected, what NORMALISE leaves alone, and the record
and the faults of a RENDER call of each shape. -/

namespace Sys2Proof.Machine

/-! ### How a shape is selected -/

/-- What the templates of a shape begin with; OTHER asks for nothing (30_encoding.md R67). -/
def shapePrefix : Shape → Text
  | .fim => fimPrefix
  | .isz => iszPrefix
  | .jcn => jcnPrefix
  | .jun => junPrefix
  | .jms => jmsPrefix
  | .other => []

/-- The shapes that one of the five prefixes selects. -/
def prefixShapes : List Shape := [.fim, .isz, .jcn, .jun, .jms]

theorem mem_prefixShapes_iff (sh : Shape) : sh ∈ prefixShapes ↔ sh ≠ .other := by
  cases sh <;> decide

/-- A text begins as the shape it selects asks. -/
theorem shapePrefix_shapeOf_prefix (T : Text) : shapePrefix (shapeOf T) <+: T := by
  unfold shapeOf
  split_ifs with h h h h h
  case neg => exact List.nil_prefix
  all_goals exact (startsWith_iff_prefix _ _).mp h

/-- Each of the five prefixes selects its shape, since no other one agrees with it (30_encoding.md R67). -/
theorem shapeOf_shapePrefix_append {sh : Shape} (h : sh ≠ .other) (tail : Text) :
    shapeOf (shapePrefix sh ++ tail) = sh := by
  cases sh with
  | other => exact absurd rfl h
  | _ => rfl

theorem shapeOf_eq_iff_prefix {sh : Shape} (h : sh ≠ .other) (T : Text) : shapeOf T = sh ↔ shapePrefix sh <+: T := by
  constructor
  · rintro rfl
    exact shapePrefix_shapeOf_prefix T
  · rintro ⟨tail, rfl⟩
    exact shapeOf_shapePrefix_append h tail

/-- A text is of the shape OTHER when it has none of the five prefixes. -/
theorem shapeOf_eq_other_iff (T : Text) : shapeOf T = .other ↔ ∀ p ∈ prefixShapes.map shapePrefix, ¬ p <+: T := by
  simp only [List.forall_mem_map, mem_prefixShapes_iff]
  constructor
  · intro hT sh hsh hprefix
    exact hsh (((shapeOf_eq_iff_prefix hsh T).mpr hprefix).symm.trans hT)
  · intro hnone
    by_contra hT
    exact hnone _ hT (shapePrefix_shapeOf_prefix T)

/-- Settles O50, by what the templates of each shape begin with. -/
theorem shapeIsSelectedByPrefix : Obligations.ShapeIsSelectedByPrefix :=
  fun T => ⟨shapeOf_eq_iff_prefix (sh := .fim) nofun T, shapeOf_eq_iff_prefix (sh := .isz) nofun T,
    shapeOf_eq_iff_prefix (sh := .jcn) nofun T, shapeOf_eq_iff_prefix (sh := .jun) nofun T,
    shapeOf_eq_iff_prefix (sh := .jms) nofun T, shapeOf_eq_other_iff T⟩

/-! ### NORMALISE -/

/-- Position 2 of each of the five prefixes holds a letter (41_render_shapes.md R89). -/
theorem isArtefact_of_shapeOf_ne_other {t : Text} (h : shapeOf t ≠ .other) : isArtefact t = false := by
  obtain ⟨tail, ht⟩ := shapePrefix_shapeOf_prefix t
  rw [← ht]
  cases hsh : shapeOf t with
  | other => exact absurd hsh h
  | _ => rfl

theorem normalise_of_getElem?_two_ne {t : Text} (h : t[2]? ≠ some ' ') : normalise t = t :=
  normalise_of_not_artefact (Bool.eq_false_iff.mpr (mt (isArtefact_iff t).mp h))

/-- Settles O49, by the test for the artefact: a space at position 2 is there only in three or more characters. -/
theorem normaliseCompactsTheArtefact : Obligations.NormaliseCompactsTheArtefact := by
  intro t
  refine ⟨fun _ hspace => normalise_of_artefact ((isArtefact_iff t).mpr hspace), fun hno => ?_,
    normalise_of_not_artefact (normalise_not_artefact t),
    fun hspace => shapeOf_normalise_of_artefact ((isArtefact_iff t).mpr hspace),
    fun hsh => normalise_of_not_artefact (isArtefact_of_shapeOf_ne_other hsh)⟩
  refine normalise_of_getElem?_two_ne fun hspace => hno ⟨?_, hspace⟩
  obtain ⟨hlength, -⟩ := List.getElem?_eq_some_iff.mp hspace
  exact hlength

/-! ### The reads and the faults of a RENDER call -/

theorem memRead_eq_ok_iff {m : Memory} {a : Nat} {b : Byte} : memRead m a = .ok b ↔ a < m.size ∧ m.peek a = b := by
  rcases Nat.lt_or_ge a m.size with h | h
  · simp [memRead_of_lt h, h]
  · simp [memRead_of_ge h, Nat.not_lt.mpr h]

section
variable {s : State} {inp : RenderInputs} {rest : List HostAction} (hp : s.pending = .render inp :: rest)
include hp

/-- Outside the memory every call faults at `pc`, whatever its shape (60_exceptions.md R113). -/
theorem step_render_fault_at_pc (hpc : s.mem.size ≤ s.pc) : step s = .fault (.outOfBounds s.pc) := by
  have hreads : 0 < bytesRead (shapeOf (normalise inp.template)) := by
    cases shapeOf (normalise inp.template) <;> decide
  rw [step_render hp, if_neg (by rw [inBounds]; omega), renderFault, if_pos hpc]

/-- At the last slot a shape that reads two bytes faults at the second. -/
theorem step_render_fault_at_second_byte (hsh : shapeOf (normalise inp.template) ≠ .other)
    (hlast : s.pc + 1 = s.mem.size) : step s = .fault (.outOfBounds (s.pc + 1)) := by
  rw [step_render hp, if_neg (by rw [inBounds_two hsh]; omega), renderFault, if_neg (by omega)]

/-- A call whose bytes are in the memory delivers the record of its template and bytes. -/
theorem step_render_delivers (hb : inBounds s.mem s.pc inp.template) :
    ∃ t, step s = .next t ∧ t.result = .decoded (renderedRecord s inp.template) :=
  ⟨afterRender s inp rest, (step_render hp).trans (if_pos hb), rfl⟩

/-- A template that begins as its shape asks: the two faults, and the record of the two bytes
(41_render_shapes.md R90 to R94). -/
theorem step_render_of_shapePrefix {sh : Shape} (hsh : sh ≠ .other) {tail : Text}
    (hT : normalise inp.template = shapePrefix sh ++ tail) {record : Byte → Byte → Decoded}
    (hrecord : ∀ b0 b1,
      recordOf s.config.addr12Token (normalise inp.template) (operandsOf b0 b1 sh) = record b0 b1) :
    (s.mem.size ≤ s.pc → step s = .fault (.outOfBounds s.pc)) ∧
    (s.pc + 1 = s.mem.size → step s = .fault (.outOfBounds (s.pc + 1))) ∧
    (∀ b0 b1, memRead s.mem s.pc = .ok b0 → memRead s.mem (s.pc + 1) = .ok b1 →
      ∃ t, step s = .next t ∧ t.result = .decoded (record b0 b1)) := by
  have hshape : shapeOf (normalise inp.template) = sh := hT ▸ shapeOf_shapePrefix_append hsh tail
  have htwo : shapeOf (normalise inp.template) ≠ .other := hshape ▸ hsh
  refine ⟨step_render_fault_at_pc hp, step_render_fault_at_second_byte hp htwo, fun b0 b1 h0 h1 => ?_⟩
  obtain ⟨-, hbyte0⟩ := memRead_eq_ok_iff.mp h0
  obtain ⟨hlt, hbyte1⟩ := memRead_eq_ok_iff.mp h1
  have hrendered : renderedRecord s inp.template = record b0 b1 := by
    rw [renderedRecord, hshape, hbyte0, hbyte1, hrecord]
  exact hrendered ▸ step_render_delivers hp ((inBounds_two htwo).mpr hlt)

end

/-! ### The record of each shape, in the numbers of its bytes -/

theorem lowNibble_eq_ofNat (b : Byte) : lowNibble b = BitVec.ofNat 4 (b.toNat % 16) := by
  rw [← lowNibble_toNat, BitVec.ofNat_toNat, BitVec.setWidth_eq]

theorem addr12_eq_ofNat (b0 b1 : Byte) : addr12 b0 b1 = BitVec.ofNat 12 (b0.toNat % 16 * 256 + b1.toNat) := by
  rw [← addr12_toNat, BitVec.ofNat_toNat, BitVec.setWidth_eq]

/-- Settles O25: the record of the immediate. -/
theorem fimFillsItsTemplate : Obligations.FimFillsItsTemplate :=
  fun _ _ _ _ hp hT => step_render_of_shapePrefix hp (sh := .fim) nofun hT fun _ _ => rfl

/-- Settles O26: the register is the low nibble of the first byte. -/
theorem iszRendersRegisterAndOperand : Obligations.IszRendersRegisterAndOperand := by
  refine fun _ _ _ _ hp hT => step_render_of_shapePrefix hp (sh := .isz) nofun hT fun b0 b1 => ?_
  rw [← lowNibble_eq_ofNat, ← lowNibble_toNat]
  rfl

/-- Settles O27: the condition is the low nibble of the first byte. -/
theorem jcnRendersConditionAndAddress : Obligations.JcnRendersConditionAndAddress := by
  refine fun _ _ _ _ hp hT => step_render_of_shapePrefix hp (sh := .jcn) nofun hT fun b0 b1 => ?_
  rw [← lowNibble_eq_ofNat, ← lowNibble_toNat]
  rfl

/-- Settles O28: the number of the address is that of its nibble and its byte. -/
theorem junRendersTheTwelveBitAddress : Obligations.JunRendersTheTwelveBitAddress := by
  refine fun _ _ _ _ hp hT => step_render_of_shapePrefix hp (sh := .jun) nofun hT fun b0 b1 => ?_
  rw [← addr12_eq_ofNat, ← addr12_toNat]
  rfl

/-- Settles O29: the number of the address is that of its nibble and its byte. -/
theorem jmsRendersTheTwelveBitAddress : Obligations.JmsRendersTheTwelveBitAddress := by
  refine fun _ _ _ _ hp hT => step_render_of_shapePrefix hp (sh := .jms) nofun hT fun b0 b1 => ?_
  rw [← addr12_eq_ofNat, ← addr12_toNat]
  rfl

/-- Settles O30: with none of the five prefixes the shape is OTHER, which reads one byte and returns the template. -/
theorem otherIsReturnedVerbatim : Obligations.OtherIsReturnedVerbatim := by
  intro s inp rest hp hnone
  have hsh : shapeOf (normalise inp.template) = .other := (shapeOf_eq_other_iff _).mpr hnone
  refine ⟨step_render_fault_at_pc hp, fun hlt => ?_, normalise_of_getElem?_two_ne⟩
  obtain ⟨t, ht, hresult⟩ := step_render_delivers hp ((inBounds_other hsh).mpr hlt)
  exact ⟨t, ht, hresult.trans (congrArg Result.decoded (renderedRecord_of_other hsh))⟩

/-- Settles O37: bounds, fault and record are functions of what the two calls share. -/
theorem recordDependsOnMemoryPcAndTemplate : Obligations.RecordDependsOnMemoryPcAndTemplate := by
  intro s s' inp inp' rest rest' hp hp' hmem hpc htemplate htoken
  have hstep := step_render hp
  have hstep' := step_render hp'
  rw [hmem, hpc, htemplate] at hstep'
  by_cases hb : inBounds s.mem s.pc inp.template
  · rw [if_pos hb] at hstep hstep'
    have hrecord : renderedRecord s' inp'.template = renderedRecord s inp.template := by
      simp only [renderedRecord, hmem, hpc, htemplate, htoken]
    exact .inr ⟨_, _, hstep, hstep', congrArg Result.decoded hrecord⟩
  · rw [if_neg hb] at hstep hstep'
    exact .inl ⟨_, hstep, hstep'⟩

/-! ### Every instruction completes -/

/-- An instruction leaves what `CompletesWith` writes out for the record of its operands. -/
theorem exec_completesWith (i : Instr) (s : State) :
    let T := deliveredTemplate s.config i
    let d := recordOf s.config.addr12Token T i.operands
    CompletesWith (exec i s) s T d (listedForm d) := by
  rw [exec_eq]
  exact deliver_completesWith _ _ s

/-- Settles O16: a listing shows the numeric form of a record without the custom-opcode flag. -/
theorem fimCompletes : Obligations.FimCompletes :=
  fun T data8 s => exec_completesWith (.fim T data8) s

/-- Settles O17: a listing shows the numeric form of a record without the custom-opcode flag. -/
theorem iszCompletes : Obligations.IszCompletes :=
  fun T reg operand s => exec_completesWith (.isz T reg operand) s

/-- Settles O18: a listing shows the symbolic form of a record with the custom-opcode flag. -/
theorem jcnCompletes : Obligations.JcnCompletes :=
  fun T cond address8 s => exec_completesWith (.jcn T cond address8) s

/-- Settles O19: a listing shows the symbolic form of a record with the custom-opcode flag. -/
theorem junCompletes : Obligations.JunCompletes :=
  fun T address s => exec_completesWith (.jun T address) s

/-- Settles O20: a listing shows the symbolic form of a record with the custom-opcode flag. -/
theorem jmsCompletes : Obligations.JmsCompletes :=
  fun T address s => exec_completesWith (.jms T address) s

/-- Settles O21: the template is both the record's text and the form that a listing shows. -/
theorem otherCompletes : Obligations.OtherCompletes :=
  fun T s => exec_completesWith (.other T) s

end Sys2Proof.Machine

/-! RENDER as 42_render_modes.md assembles it, and its two modes: the shape rules and the step agree, a call leaves one
row or none, and what STRIP takes out of the text that is shown. -/

namespace Sys2Proof.Machine

/-! ### The shape rules of R109 -/

/-- The read of a one-byte shape, with its fault as a step reports it. -/
theorem memRead_eq_renderFault (m : Memory) (pc : Nat) :
    memRead m pc = if pc < m.size then .ok (m.peek pc) else .error (renderFault m pc) := by
  by_cases h : pc < m.size
  · rw [if_pos h, memRead_of_lt h]
  · rw [if_neg h, memRead_of_ge (Nat.not_lt.mp h), renderFault, if_pos (Nat.not_lt.mp h)]

/-- The reads of a two-byte shape, with their fault as a step reports it. -/
theorem readPair_eq_renderFault (m : Memory) (pc : Nat) :
    readPair m pc =
      if pc + 1 < m.size then .ok (m.peek pc, m.peek (pc + 1)) else .error (renderFault m pc) := by
  rw [readPair_eq, renderFault]
  by_cases h0 : m.size ≤ pc
  · rw [if_pos h0, if_pos h0, if_neg (by omega)]
  · by_cases h1 : m.size ≤ pc + 1
    · rw [if_neg h0, if_neg h0, if_pos h1, if_neg (by omega)]
    · rw [if_neg h0, if_neg h1, if_pos (by omega)]

/-- Each of the five two-byte rules builds the record of the operands that its shape takes. -/
theorem shapeRule_two {T : Text} (h : shapeOf T ≠ .other) (cfg : Config) (m : Memory) (pc : Nat) :
    shapeRule cfg T m pc =
      (readPair m pc).map fun b => recordOf cfg.addr12Token T (operandsOf b.1 b.2 (shapeOf T)) := by
  unfold shapeRule
  cases hsh : shapeOf T with
  | other => exact absurd hsh h
  | _ => rfl

theorem shapeRule_other {T : Text} (h : shapeOf T = .other) (cfg : Config) (m : Memory) (pc : Nat) :
    shapeRule cfg T m pc = (memRead m pc).map fun _ => otherRecord T := by
  simp only [shapeRule, h]

/-- The shape rule answers the record that a step delivers, or the fault that it reports. -/
theorem shapeRule_eq (s : State) (template : Text) :
    shapeRule s.config (normalise template) s.mem s.pc =
      if inBounds s.mem s.pc template then .ok (renderedRecord s template)
      else .error (renderFault s.mem s.pc) := by
  by_cases ho : shapeOf (normalise template) = .other
  · rw [shapeRule_other ho, memRead_eq_renderFault, renderedRecord_of_other ho]
    simp only [inBounds_other ho]
    split_ifs <;> rfl
  · rw [shapeRule_two ho, readPair_eq_renderFault]
    simp only [inBounds_two ho]
    split_ifs <;> rfl

/-! ### The two modes -/

/-- What a listing-mode call leaves is what LISTING_STEP gives (42_render_modes.md R100). -/
theorem afterRender_listing {inp : RenderInputs} (hm : inp.mode = .listing) (s : State) (rest : List HostAction) :
    let d := renderedRecord s inp.template
    let shown := listingStep s.config d (normalise inp.template) inp s.pc
    afterRender s inp rest = { s with
      pending := rest, inputs := inp, result := .decoded d, rows := s.rows ++ shown.1, pc := shown.2 } := by
  simp only [afterRender, pcAfterRender, renderedRow, hm, listingStep]

/-- What a trace-mode call leaves is what TRACE_STEP gives (42_render_modes.md R105). -/
theorem afterRender_trace {inp : RenderInputs} (hm : inp.mode = .trace) (s : State) (rest : List HostAction) :
    let d := renderedRecord s inp.template
    afterRender s inp rest = { s with
      pending := rest, inputs := inp, result := .decoded d, rows := s.rows ++ traceStep d inp } := by
  simp only [afterRender, pcAfterRender, renderedRow, hm, traceStep]

/-- Settles O10: inside the bounds of the shape rule both deliver its record, outside them both report its fault. -/
theorem renderCallIsTheAssembledPseudocode : Obligations.RenderCallIsTheAssembledPseudocode := by
  refine fun s inp rest hp => ⟨fun hm => ?_, fun hm => ?_⟩
  · rw [step_render hp, renderListing, shapeRule_eq, afterRender_listing hm]
    split_ifs <;> rfl
  · rw [step_render hp, renderTrace, shapeRule_eq, afterRender_trace hm]
    split_ifs <;> rfl

/-- A record with the custom-opcode flag has a symbolic form, and a listing shows it (42_render_modes.md R101). -/
theorem symbolic_eq_listedForm {d : Decoded} (hfit : d.fieldsFit = true) (hd : d.custom = true) :
    d.symbolic = some (listedForm d) := by
  obtain ⟨hcustom, hsymbolic, -⟩ := Decoded.fields_of_fieldsFit hfit
  obtain ⟨form, hform⟩ := Option.isSome_iff_exists.mp (hsymbolic.trans (hcustom.symm.trans hd))
  simp [listedForm, hd, hform]

theorem listedForm_of_not_custom {d : Decoded} (hd : d.custom = false) : listedForm d = d.text := by
  simp [listedForm, hd]

/-- A listing-mode call whose bytes are in the memory: its row is the one of its mode, and `pc` moves by the width. -/
theorem step_render_listing {s : State} {inp : RenderInputs} {rest : List HostAction}
    (hp : s.pending = .render inp :: rest) (hm : inp.mode = .listing) (hb : inBounds s.mem s.pc inp.template)
    {row : Row}
    (hrow : renderedRow s.config (renderedRecord s inp.template) (normalise inp.template) inp s.pc = row) :
    step s = .next { s with
      pending := rest
      inputs  := inp
      result  := .decoded (renderedRecord s inp.template)
      rows    := s.rows ++ (if inp.quiet = true then [] else [row])
      pc      := s.pc + slots inp.wordWidth } := by
  rw [step_render hp, if_pos hb, afterRender, pcAfterRender_listing hm, hrow, emit_eq]

/-- Settles O32: the row is that of the end directive, or that of the form which a listing shows. -/
theorem listingModeShowsOneRowAndAdvances : Obligations.ListingModeShowsOneRowAndAdvances := by
  intro s inp rest hp hm hb
  by_cases hT : normalise inp.template = s.config.endDirective
  · exact ⟨renderedRecord s inp.template, [], _, fun _ => ⟨rfl, rfl⟩, fun hne => absurd hT hne,
      step_render_listing hp hm hb (renderedRow_listing_endDirective _ _ hm hT)⟩
  · exact ⟨renderedRecord s inp.template, inp.label, _, fun heq => absurd heq hT,
      fun _ => ⟨rfl, symbolic_eq_listedForm (recordOf_fieldsFit _ _ _), listedForm_of_not_custom⟩,
      step_render_listing hp hm hb (renderedRow_listing _ _ hm hT)⟩

/-- Settles O33: TRACE_STEP hands over the row and is given no program counter. -/
theorem traceModeShowsOneRowAndStays : Obligations.TraceModeShowsOneRowAndStays := by
  intro s inp rest hp hm hb
  refine ⟨renderedRecord s inp.template, ?_⟩
  rw [step_render hp, if_pos hb, afterRender_trace hm, traceStep, emit_eq]

/-! ### The number of rows -/

/-- A step on anything but a RENDER call hands over no row (42_render_modes.md R104). -/
theorem step_rows_of_not_render {s t : State} {a : HostAction} {rest : List HostAction} (hp : s.pending = a :: rest)
    (ha : ∀ inp, a ≠ .render inp) (ht : step s = .next t) : t.rows = s.rows := by
  cases a with
  | render inp => exact absurd rfl (ha inp)
  | findByName query strictness =>
    cases (step_findByName hp).symm.trans ht
    rfl
  | findByOpcode code =>
    cases (step_findByOpcode hp).symm.trans ht
    rfl
  | movePc pc =>
    cases (step_movePc hp).symm.trans ht
    rfl
  | supplyMemory bytes =>
    cases (step_supplyMemory hp).symm.trans ht
    rfl

/-- A completed RENDER call hands over what `emit` makes of one row. -/
theorem step_render_rows {s t : State} {inp : RenderInputs} {rest : List HostAction}
    (hp : s.pending = .render inp :: rest) (ht : step s = .next t) :
    ∃ row, t.rows = s.rows ++ emit inp.quiet row :=
  ⟨_, congrArg State.rows (step_render_eq_next hp ht)⟩

/-- Settles O35, by the kind of the call and, for a RENDER call, by `quiet`. -/
theorem atMostOneRowACall : Obligations.AtMostOneRowACall := by
  refine fun s t a rest hp ht => ⟨?_, ?_, fun ha => step_rows_of_not_render hp ha ht⟩
  · rintro inp rfl hquiet
    obtain ⟨row, hrows⟩ := step_render_rows hp ht
    rw [hrows, hquiet, emit_true, List.append_nil]
  · rintro inp rfl hloud
    obtain ⟨row, hrows⟩ := step_render_rows hp ht
    exact ⟨row, by rw [hrows, hloud, emit_false]⟩

/-! ### STRIP -/

/-- A pair that begins in front of the first one would lie in the text before it and the first `(`. -/
theorem no_parens_before {a : Text} (h : ¬ parens <:+: a ++ ['(']) (b : Text) :
    ∀ k, k < a.length → ¬ parens <+: (a ++ parens ++ b).drop k := by
  intro k hk hpair
  have hsplit : (a ++ parens ++ b).drop k = (a ++ ['(']).drop k ++ ([')'] ++ b) := by
    rw [← List.drop_append_of_le_length (by rw [List.length_append]; omega)]
    simp [parens]
  have hlen : parens.length ≤ ((a ++ ['(']).drop k).length := by
    simp only [parens, List.length_drop, List.length_append, List.length_cons, List.length_nil]
    omega
  have hinside : parens <+: (a ++ ['(']).drop k :=
    List.prefix_of_prefix_length_le (hsplit ▸ hpair) (List.prefix_append _ _) hlen
  exact h (hinside.isInfix.trans (List.drop_suffix k _).isInfix)

/-- Settles O36: STRIP is `replace_all` of the pair, whose first occurrence is the one at hand. -/
theorem stripRemovesEveryPair : Obligations.StripRemovesEveryPair := by
  have hparens : parens ≠ [] := by decide
  refine ⟨fun t h => replaceAll_of_no_occurrence hparens [] h, fun a b h => ?_⟩
  calc strip (a ++ parens ++ b) = a ++ [] ++ strip b :=
        replaceAll_first_occurrence hparens [] (no_parens_before h b)
    _ = a ++ strip b := by rw [List.append_nil]

/-! ### The decoded instruction and the end directive -/

/-- Settles O3: the bytes read and the instruction decoded from them are what the call fetches. -/
theorem stepRunsTheDecodedInstruction : Obligations.StepRunsTheDecodedInstruction :=
  fun _ _ _ _ _ _ hp hread hdecode => step_of_fetchInstr hp (by simp only [fetchInstr, hread, hdecode])

/-- For the end directive a completed call does not depend on the form that a listing would show of it
(42_render_modes.md R102). -/
theorem CompletesWith.endDirective {o : Host.Outcome State Fault Refusal} {s : State} {d : Decoded} {listed : Text}
    (h : CompletesWith o s s.config.endDirective d listed) (listed' : Text) :
    CompletesWith o s s.config.endDirective d listed' := by
  simpa only [CompletesWith, if_true] using h

/-- Settles O23: the row of the end directive shows the numeric form, whatever its shape. -/
theorem endDirectiveCompletes : Obligations.EndDirectiveCompletes := by
  refine fun ops s => ⟨(exec_completesWith (.endDirective ops) s).endDirective _, recordOf_shape _ _ _, ?_⟩
  rintro rfl
  rfl

end Sys2Proof.Machine

/-! The fault of a RENDER call: when it is raised and at which index, that nothing of it stays, and the codes of the error
kinds (60_exceptions.md). -/

namespace Sys2Proof.Machine

/-! ### When a RENDER call faults -/

/-- A shape's bytes are cut off when `pc` lies outside the memory, or at the last slot when a second byte is read. -/
theorem not_inBounds_iff (m : Memory) (pc : Nat) (template : Text) :
    ¬ inBounds m pc template ↔
      m.size ≤ pc ∨ (pc < m.size ∧ m.size ≤ pc + 1 ∧ shapeOf (normalise template) ≠ .other) := by
  by_cases hsh : shapeOf (normalise template) = .other
  · rw [inBounds_other hsh]
    simp [hsh]
  · rw [inBounds_two hsh]
    simp only [hsh, ne_eq, not_false_eq_true, and_true]
    omega

theorem renderFault_of_le {m : Memory} {pc : Nat} (h : m.size ≤ pc) : renderFault m pc = .outOfBounds pc :=
  congrArg Fault.outOfBounds (if_pos h)

theorem renderFault_of_lt {m : Memory} {pc : Nat} (h : pc < m.size) : renderFault m pc = .outOfBounds (pc + 1) :=
  congrArg Fault.outOfBounds (if_neg (Nat.not_le.mpr h))

/-- A RENDER call faults exactly when its bytes are not all in the memory, and the fault is a function of the memory and
`pc` alone. -/
theorem step_render_eq_fault_iff {s : State} {inp : RenderInputs} {rest : List HostAction} {f : Fault}
    (hp : s.pending = .render inp :: rest) :
    step s = .fault f ↔ ¬ inBounds s.mem s.pc inp.template ∧ f = renderFault s.mem s.pc := by
  rw [step_render hp]
  by_cases hb : inBounds s.mem s.pc inp.template
  · simp [hb]
  · simp [hb, eq_comm]

/-- Settles O12: of the two ways to be out of bounds, the first faults at `pc` and the second at `pc + 1`. -/
theorem outOfBoundsIsRaisedExactlyAt : Obligations.OutOfBoundsIsRaisedExactlyAt := by
  refine ⟨fun s inp rest f hp => ?_, fun s q st rest f hp => ?_, fun s code rest f hp => ?_,
    fun s inp rest hp hempty => step_render_fault_at_pc hp (hempty ▸ Nat.zero_le _)⟩
  · rw [step_render_eq_fault_iff hp, not_inBounds_iff]
    rcases Nat.lt_or_ge s.pc s.mem.size with hlt | hge
    · simp [renderFault_of_lt hlt, hlt, Nat.not_le.mpr hlt, and_assoc]
    · simp [renderFault_of_le hge, hge, Nat.not_lt.mpr hge]
  · rw [step_findByName hp]
    nofun
  · rw [step_findByOpcode hp]
    nofun

/-! ### After the fault -/

theorem afterFault_eq {s : State} {a : HostAction} {rest : List HostAction} (hp : s.pending = a :: rest) :
    afterFault s = { s with pending := rest } :=
  congrArg s.withPending (congrArg List.tail hp)

/-- Settles O14: whether and how a call faults depends on the memory, `pc` and the template alone. -/
theorem faultIsNotRemembered : Obligations.FaultIsNotRemembered := by
  intro s f inp rest hp hf
  obtain ⟨hout, hfault⟩ := (step_render_eq_fault_iff hp).mp hf
  refine ⟨afterFault_eq hp, fun i₀ r₀ rows₀ rest' => ?_, fun m hm => ?_⟩
  · exact (step_render_eq_fault_iff rfl).mpr ⟨hout, hfault⟩
  · obtain ⟨t, ht, -⟩ := step_render_delivers (s := { s with mem := m }) hp hm
    exact ⟨t, ht⟩

/-! ### The error kinds -/

/-- Settles O46, by the definitions of the codes (60_exceptions.md R111) and of what reports each kind. -/
theorem errorKindCodes : Obligations.ErrorKindCodes :=
  ⟨rfl, rfl, rfl, rfl, fun _ => rfl, rfl, fun _ => rfl, fun _ => rfl⟩

end Sys2Proof.Machine

/-! The caller around the block (70_reset_and_hazards.md): a step without a call, a moved program counter, the load of a
table word, and the reference walker. -/

namespace Sys2Proof.Machine

/-! ### The caller's own moves -/

/-- Settles O2: with no call waiting there is no action to take. -/
theorem nothingHappensWithoutACall : Obligations.NothingHappensWithoutACall :=
  fun _ => step_idle

/-- Settles O55: the move is one of the caller's actions, and a step takes it. -/
theorem callerMayMoveThePc : Obligations.CallerMayMoveThePc :=
  fun _ _ _ => step_movePc

/-! ### The load of a table word -/

theorem resolve_pair (sh : Shape) (b0 b1 : Byte) : ∃ rest, resolve sh [b0, b1] = .ok (operandsOf b0 b1 sh, rest) := by
  cases sh with
  | other => exact ⟨[b1], rfl⟩
  | _ => exact ⟨[], rfl⟩

/-- The instruction of an entry whose bytes are `b0` and `b1`, under the suggested default of the end directive. -/
def entryInstr (e : OpcodeEntry) (b0 b1 : Byte) : Instr :=
  instrOf Config.defaultEndDirective e.mnemonic (operandsOf b0 b1 (shapeOf (normalise e.mnemonic)))

/-- A table word is an instruction exactly when the reference table has an entry for its first byte: two bytes are enough
for every shape. -/
theorem decodeTableWord_eq (nbits w : Nat) :
    decodeTableWord nbits w =
      (tableEntry nbits w).map fun e => entryInstr e (tableByte nbits w 0) (tableByte nbits w 1) := by
  unfold decodeTableWord
  cases tableEntry nbits w with
  | none => rfl
  | some e =>
    obtain ⟨rest, hrest⟩ :=
      resolve_pair (shapeOf (normalise e.mnemonic)) (tableByte nbits w 0) (tableByte nbits w 1)
    simp only [decode, hrest, Option.map_some, entryInstr]

/-- The memory with room for two bytes at `pc`, and these bytes there. -/
def Memory.loadPair (m : Memory) (pc : Nat) (b0 b1 : Byte) : Memory :=
  ((m.grow (pc + 2)).store pc b0).store (pc + 1) b1

section
variable {m : Memory} (hwf : m.wf) (pc : Nat) (b0 b1 : Byte)

theorem Memory.loadPair_size : (m.loadPair pc b0 b1).size = max m.size (pc + 2) := by
  simp [loadPair]

include hwf

theorem Memory.loadPair_peek_first : (m.loadPair pc b0 b1).peek pc = b0 := by
  have hgrown := grow_wf hwf (pc + 2)
  rw [loadPair, peek_store_ne (store_wf hgrown pc b0) b1 (by omega), peek_store_self hgrown (by simp)]

theorem Memory.loadPair_peek_second : (m.loadPair pc b0 b1).peek (pc + 1) = b1 :=
  peek_store_self (store_wf (grow_wf hwf (pc + 2)) pc b0) (by simp) b1

theorem Memory.loadPair_peek_ne {a : Nat} (h0 : a ≠ pc) (h1 : a ≠ pc + 1) :
    (m.loadPair pc b0 b1).peek a = m.peek a := by
  have hgrown := grow_wf hwf (pc + 2)
  rw [loadPair, peek_store_ne (store_wf hgrown pc b0) b1 h1, peek_store_ne hgrown b0 h0, grow_peek]

/-- The bytes that were there before are read as before, but for the two that were loaded. -/
theorem memRead_loadPair_ne {a : Nat} (ha : a < m.size) (h0 : a ≠ pc) (h1 : a ≠ pc + 1) :
    memRead (m.loadPair pc b0 b1) a = memRead m a := by
  have hroom : a < (m.loadPair pc b0 b1).size := by
    rw [Memory.loadPair_size]
    exact lt_max_of_lt_left ha
  rw [memRead_of_lt hroom, memRead_of_lt ha, Memory.loadPair_peek_ne hwf pc b0 b1 h0 h1]

end

/-- No shape reads more than the two bytes that were loaded. -/
theorem inBounds_loadPair (m : Memory) (pc : Nat) (b0 b1 : Byte) (template : Text) :
    inBounds (m.loadPair pc b0 b1) pc template := by
  have htwo : bytesRead (shapeOf (normalise template)) ≤ 2 := by
    cases shapeOf (normalise template) <;> decide
  rw [inBounds, Memory.loadPair_size]
  omega

/-- The state on which the instruction of a loaded word runs: the call is taken, and its bytes are in the memory. -/
def afterFetchWord (s : State) (inp : RenderInputs) (b0 b1 : Byte) : State :=
  { s with mem := s.mem.loadPair s.pc b0 b1, inputs := inp }

/-- The call fetches the instruction of its template and of the two loaded bytes. -/
theorem fetchInstr_afterFetchWord {s : State} (hwf : s.mem.wf) (inp : RenderInputs) (b0 b1 : Byte) :
    fetchInstr (afterFetchWord s inp b0 b1) = .ok (instrOf s.config.endDirective inp.template
      (operandsOf b0 b1 (shapeOf (normalise inp.template)))) := by
  rw [fetchInstr_of_inBounds (inBounds_loadPair s.mem s.pc b0 b1 inp.template)]
  simp only [afterFetchWord, Memory.loadPair_peek_first hwf, Memory.loadPair_peek_second hwf]

/-- A word whose first byte has an entry puts the RENDER call for that entry first. -/
theorem withFetchWord_pending {nbits w : Nat} {e : OpcodeEntry} (he : tableEntry nbits w = some e) (s : State) :
    (s.withFetchWord nbits w).pending = .render (renderOfEntry (tableByte nbits w 0) e) :: s.pending := by
  simp only [State.withFetchWord, loadTableWord, actionOfTableWord, he, State.withPending_pending]

/-- Settles O8: the loaded call has the template of the word's entry and reads the word's two bytes. -/
theorem fetchWordIsTheNextInstruction : Obligations.FetchWordIsTheNextInstruction := by
  intro s nbits w i hwf hend hi
  rw [decodeTableWord_eq, Option.map_eq_some_iff] at hi
  obtain ⟨e, he, rfl⟩ := hi
  have hfetch := fetchInstr_afterFetchWord hwf (renderOfEntry (tableByte nbits w 0) e)
    (tableByte nbits w 0) (tableByte nbits w 1)
  rw [hend] at hfetch
  exact ⟨_, step_of_fetchInstr (withFetchWord_pending he s) hfetch, rfl, rfl, rfl, rfl, rfl, rfl,
    fun _ => memRead_loadPair_ne hwf _ _ _⟩

/-! ### The reference walker -/

/-- A RENDER call made without the list of waiting calls, as the walker makes it. -/
theorem perform_render (inp : RenderInputs) (s : State) :
    perform (.render inp) s = if inBounds s.mem s.pc inp.template then .next (afterRender s inp s.pending)
      else .fault (renderFault s.mem s.pc) :=
  step_render (s := { s with pending := .render inp :: s.pending }) rfl

section
variable {s : State} (fuel : Nat)

theorem walk_of_size_le (h : s.mem.size ≤ s.pc) : walk (fuel + 1) s = (s, .endOfMemory) := by
  rw [walk, if_pos h]

theorem walk_of_notFound (h : s.pc < s.mem.size) (hopcode : findByOpcode s.otab (s.mem.peek s.pc) = .notFound) :
    walk (fuel + 1) s = (s, .unknownMnemonic) := by
  rw [walk, if_neg (Nat.not_le.mpr h), hopcode]

/-- A round at a known opcode is the RENDER call for its entry. -/
theorem walk_of_found {e : OpcodeEntry} (h : s.pc < s.mem.size)
    (hopcode : findByOpcode s.otab (s.mem.peek s.pc) = .found e) :
    walk (fuel + 1) s =
      if inBounds s.mem s.pc e.mnemonic then
        walk fuel (afterRender s (renderOfEntry (s.mem.peek s.pc) e) s.pending)
      else (s, .fault (renderFault s.mem s.pc)) := by
  rw [walk, if_neg (Nat.not_le.mpr h), hopcode]
  simp only [perform_render, renderOfEntry]
  split_ifs <;> rfl

end

theorem afterRender_mem (s : State) (inp : RenderInputs) (rest : List HostAction) :
    (afterRender s inp rest).mem = s.mem := rfl

/-- A round that completes moves the program counter on by the entry's width, at least one slot
(70_reset_and_hazards.md R148). -/
theorem lt_pc_afterRender {inp : RenderInputs} (hm : inp.mode = .listing) (s : State) (rest : List HostAction) :
    s.pc < (afterRender s inp rest).pc := by
  have hslots : 0 < slots inp.wordWidth := by
    cases inp.wordWidth <;> decide
  calc s.pc < s.pc + slots inp.wordWidth := Nat.lt_add_of_pos_right hslots
    _ = pcAfterRender inp s.pc := (pcAfterRender_listing hm s.pc).symm

/-- A walk from `s` that stopped in `t` swept forward over an unchanged memory and ended for one of the reasons of
70_reset_and_hazards.md R152. -/
def SweptTo (s t : State) (e : WalkEnd) : Prop :=
  s.pc ≤ t.pc ∧ t.mem = s.mem ∧
  ((e = .endOfMemory ∧ s.mem.size ≤ t.pc) ∨
    (e = .unknownMnemonic ∧ t.pc < s.mem.size ∧ ∀ x ∈ s.otab, x.opcode ≠ s.mem.peek t.pc) ∨
    (e = .fault (.outOfBounds s.mem.size) ∧ t.pc + 1 = s.mem.size))

/-- A round in front of a sweep is part of it: a RENDER call leaves memory and table. -/
theorem SweptTo.after_round {s t : State} {inp : RenderInputs} {rest : List HostAction} {e : WalkEnd}
    (hm : inp.mode = .listing) (h : SweptTo (afterRender s inp rest) t e) : SweptTo s t e := by
  obtain ⟨hpc, hmem, hend⟩ := h
  exact ⟨(lt_pc_afterRender hm s rest).le.trans hpc, hmem, hend⟩

/-- Cut off inside the memory, a call faults at the end of memory and leaves `pc` at the last slot. -/
theorem sweptTo_cut_off {s : State} {template : Text} (h : s.pc < s.mem.size)
    (hb : ¬ inBounds s.mem s.pc template) : SweptTo s s (.fault (renderFault s.mem s.pc)) := by
  have hlast : s.pc + 1 = s.mem.size := by
    rcases (not_inBounds_iff _ _ _).mp hb with hge | ⟨-, hge, -⟩ <;> omega
  rw [renderFault_of_lt h, hlast]
  exact ⟨le_rfl, rfl, .inr (.inr ⟨rfl, hlast⟩)⟩

/-- More rounds than there are slots ahead are enough for the sweep to end. -/
theorem walk_sweptTo (fuel : Nat) : ∀ {s : State}, s.mem.size - s.pc < fuel →
    SweptTo s (walk fuel s).1 (walk fuel s).2 := by
  induction fuel with
  | zero => exact fun h => absurd h (Nat.not_lt_zero _)
  | succ fuel ih =>
    intro s hfuel
    rcases Nat.lt_or_ge s.pc s.mem.size with hlt | hge
    · rcases findByOpcode_cases s.otab (s.mem.peek s.pc) with ⟨_, e, _, -, -, -, hfound⟩ | ⟨hunknown, hnone⟩
      · rw [walk_of_found fuel hlt hfound]
        split_ifs with hb
        · have hpc := lt_pc_afterRender (inp := renderOfEntry (s.mem.peek s.pc) e) rfl s s.pending
          refine SweptTo.after_round rfl (ih ?_)
          rw [afterRender_mem]
          omega
        · exact sweptTo_cut_off hlt hb
      · rw [walk_of_notFound fuel hlt hnone]
        exact ⟨le_rfl, rfl, .inr (.inl ⟨rfl, hlt, hunknown⟩)⟩
    · rw [walk_of_size_le fuel hge]
      exact ⟨le_rfl, rfl, .inl ⟨rfl, hge⟩⟩

/-- Settles O56: each round moves `pc` on, so one round more than there are slots ahead is enough. -/
theorem walkEndsAtMemoryEndUnknownOpcodeOrFault : Obligations.WalkEndsAtMemoryEndUnknownOpcodeOrFault := by
  intro s t e hwalk
  have hswept := walk_sweptTo _ (Nat.lt_succ_self (s.mem.size - s.pc))
  rw [hwalk] at hswept
  exact hswept

end Sys2Proof.Machine
